-- ==== Sys2Proof/Word.lean ====
section
/-! DEFINITION. The word types of SMS-CORE.

The register width XW is an OPEN parameter of the spec (R6), so a register value is not a bit vector of one
fixed width: it is the unsigned integer the spec says it is (R9: "Every register value is an unsigned integer
of the register's width"), and `State.Inv` says that it is below `2 ^ XW` (log 3). What has one width in the
spec (register numbers, control register numbers, command words, alphabet codes) is a bit vector of it. -/

namespace Sys2Proof

/-- A value of a data register or of the port: an unsigned integer of at most XW bits (R9, R20). -/
abbrev Word := Nat

/-- A data register number, 3 bits (R44, R61). -/
abbrev RegNum := BitVec 3

/-- A control register number, 4 bits (R24, R44). -/
abbrev CtlNum := BitVec 4

/-- A command word, 16 bits (R61). -/
abbrev CmdWord := BitVec 16

/-- An entry of the alphabet ROM, 8 bits (R30). -/
abbrev CharCode := BitVec 8

end Sys2Proof
end

