-- ==== Sys2Proof/Config.lean ====
section
/-! DEFINITION. What an implementation fixes (R6) and the one value the spec leaves open. -/

namespace Sys2Proof

/-- The OPEN parameters of R6. `State.cfg` holds them, since the unit shows all five as the constant control
registers 5 to 9 (R24); no transaction changes them (R29). KP and KQ are "not held by the hardware" (R6):
they stand in `Config.CipherParameters` (Safety.lean) only. -/
structure Config where
  /-- NMAX, the largest field degree; control register CAPN. -/
  nmax : Nat
  /-- XW, the width in bits of a data register; control register CAPX. -/
  xw : Nat
  /-- KN, the cipher modulus N. -/
  kn : Nat
  /-- KE, the public exponent E. -/
  ke : Nat
  /-- KD, the private exponent D. -/
  kd : Nat
  deriving DecidableEq, Repr

/-- The reference values of NMAX and XW (R6) and the spec's example set for KN, KE, KD (D7).
DESIGN CHOICE, log 2: the spec gives the parameters no value; only `State.reset` uses this one. -/
def Config.reference : Config := { nmax := 7, xw := 128, kn := 3233, ke := 17, kd := 2753 }

/-- Free value (log 5, DESIGN CHOICE): what RDC `c` returns of a control register holding `v` when `v` has more
than `xw` bits. R24 and R59 say "zero-extended to XW bits", which states no result for a register wider than XW. By R40
no control register is wider: no unit that meets `Config.ControlRegistersFit` returns this value. -/
opaque Config.wideRead (c : CtlNum) (v xw : Nat) : Nat

end Sys2Proof
end

