-- ==== Sys2Proof/Machine/Transaction.lean ====
section
/-! DEFINITION. The five transactions of the unit's one port (R55). -/

namespace Sys2Proof.Machine

/-- One action of the host on the port (R55). -/
inductive Transaction where
  /-- RESET (R56). -/
  | reset
  /-- WRX i, v (R57): a register number and an XW-bit value. -/
  | wrx (i : RegNum) (v : Word)
  /-- RDX i (R58). -/
  | rdx (i : RegNum)
  /-- RDC c (R59). -/
  | rdc (c : CtlNum)
  /-- CMD w (R60). -/
  | cmd (w : CmdWord)
  deriving DecidableEq, Repr

end Sys2Proof.Machine
end

