-- ==== Sys2Proof/Machine/State.lean ====
section
/-! DEFINITION. The state tuple of 10_state.md, the reasons a step stops, and the state after reset. -/

namespace Sys2Proof.Machine

/-- The whole state of the unit (10_state.md, head: `X`, `STATUS`, `CAUSE`, `FINFO`, `GEN`, `NDEG`, `FT`), the
constants beside it (`cfg`), and the host's side of the port (`pending`, `returned`). -/
structure State where
  /-- The constants, shown as control registers 5 to 9; no transaction changes them (R24, R29; log 2). -/
  cfg : Config
  /-- The data registers `X[0]` to `X[7]` (R20). -/
  x : Vector Word 8
  /-- STATUS bit 0: the field is built (R25). -/
  ready : Bool
  /-- STATUS bit 1: a fault was taken since reset (R25, R144). -/
  faulted : Bool
  /-- STATUS bit 2: CC.DEC corrected a bit (R23). -/
  corr : Bool
  /-- CAUSE: the code of the fault taken, 0 if none (R26, R141). -/
  cause : BitVec 4
  /-- FINFO: the command word that faulted, 0 if none (R26). -/
  finfo : CmdWord
  /-- GEN: the generator polynomial in use, 0 before GF.INIT (R27). -/
  gen : Nat
  /-- NDEG: the degree in use, 0 before GF.INIT (R27). -/
  ndeg : Nat
  /-- FT: the entries of the field table that hold a value, entry 0 first. Empty after reset ("a model gives the
  entries no value", R161); the `2 ^ n` valid entries after GF.INIT (R28; log 4). -/
  ft : List Nat
  /-- The host's, not the unit's (R22, R70; log 1): the transactions still to be issued, the next one first. -/
  pending : List Transaction
  /-- The host's, not the unit's (R70; log 1): the values RDX and RDC returned, the oldest first. -/
  returned : List Word
  deriving DecidableEq, Repr

/-- The eleven fault causes of R141. A fault of the UNIT is no stop of the model: it is a next state (R143). -/
inductive Cause where
  | illegalCmd
  | noField
  | reinit
  | badGenerator
  | badExponent
  | badElement
  | notInTable
  | encOverflow
  | badModexpOperand
  | notInAlphabet
  | badAlphabetValue
  deriving DecidableEq, Repr

/-- Where the model itself stops. -/
inductive Fault where
  /-- Raised by a table read of GF.ELEM or GF.ADD at an entry that holds no value (U6: a model gives the
  unspecified entries no value and refuses any read; "none is possible", R161). Safe: no state that meets
  `State.Inv` raises it. -/
  | tableEntryUnspecified (index : Nat)
  deriving DecidableEq, Repr

/-- What the model gives no meaning. -/
inductive Refusal where
  /-- Raised by `exec` for a command that has no meaning yet. No arm raises it: all sixteen are modelled. Safe. -/
  | notModelled (mnemonic : String)
  /-- Raised by a pending WRX whose value does not fit in XW bits. There is no such transaction: it "carries ... value
  v (XW bits)" (R55), and "the host must not issue the WRX" (R76). Safe (log 3). -/
  | wrxValueTooWide (i : RegNum) (v : Word)
  deriving DecidableEq, Repr

/-- The outcome of a step. -/
abbrev Result := Host.Outcome State Fault Refusal

/-- The state after reset of a unit with the given constants (R33, R160), nothing pending and nothing returned. -/
def State.atReset (c : Config) : State :=
  { cfg := c, x := Vector.replicate 8 0, ready := false, faulted := false, corr := false, cause := 0, finfo := 0,
    gen := 0, ndeg := 0, ft := [], pending := [], returned := [] }

/-- The state right after reset (R160). The constants are the reference configuration (DESIGN CHOICE, log 2), and
no program is loaded: the host's list is empty (log 1). -/
def State.reset : State := State.atReset Config.reference

end Sys2Proof.Machine
end

