-- ==== Sys2Proof/Machine/Flags.lean ====
section
/-! DEFINITION. The flag CORR and the STATUS register (R23, R25). The unit has no other flag. -/

namespace Sys2Proof.Machine

/-- `STATUS.CORR <- b`; only CC.DEC writes it (R23, R105). -/
def writeCorr (s : State) (b : Bool) : State := { s with corr := b }

/-- STATUS as a number: bit 0 READY, bit 1 FAULTED, bit 2 CORR; the bits above read as 0 (R24, R25). -/
def statusWord (s : State) : BitVec 3 := BitVec.ofBool s.corr ++ BitVec.ofBool s.faulted ++ BitVec.ofBool s.ready

end Sys2Proof.Machine
end

