-- ==== Sys2Proof/Syntax.lean ====
section
/-! DEFINITION. The sixteen commands of R63, one constructor per row of spec/opcode_table.json.

A field the row calls "must be 0" is no argument. Every argument is a 3-bit register number: no command has an
immediate (R62). -/

namespace Sys2Proof

/-- A command (R63). Arguments in the order of the listing syntax R68: `rd`, `rs1`, `rs2`. -/
inductive Instr where
  /-- GF.INIT rs1 (R82). -/
  | gfInit (rs1 : RegNum)
  /-- GF.ELEM rd, rs1 (R85). -/
  | gfElem (rd rs1 : RegNum)
  /-- GF.LOG rd, rs1 (R86). -/
  | gfLog (rd rs1 : RegNum)
  /-- GF.ADD rd, rs1, rs2 (R87). -/
  | gfAdd (rd rs1 rs2 : RegNum)
  /-- GF.MUL rd, rs1, rs2 (R88). -/
  | gfMul (rd rs1 rs2 : RegNum)
  /-- GF.POW rd, rs1, rs2 (R89). -/
  | gfPow (rd rs1 rs2 : RegNum)
  /-- CC.ENC rd, rs1 (R101). -/
  | ccEnc (rd rs1 : RegNum)
  /-- CC.QUO rd, rs1 (R102). -/
  | ccQuo (rd rs1 : RegNum)
  /-- CC.SYN rd, rs1 (R103). -/
  | ccSyn (rd rs1 : RegNum)
  /-- CC.LOC rd, rs1 (R104). -/
  | ccLoc (rd rs1 : RegNum)
  /-- CC.DEC rd, rs1 (R105). -/
  | ccDec (rd rs1 : RegNum)
  /-- ME.EXP rd, rs1, rs2 (R123). -/
  | meExp (rd rs1 rs2 : RegNum)
  /-- ME.ENCR rd, rs1 (R124). -/
  | meEncr (rd rs1 : RegNum)
  /-- ME.DECR rd, rs1 (R125). -/
  | meDecr (rd rs1 : RegNum)
  /-- ME.C2I rd, rs1 (R129). -/
  | meC2i (rd rs1 : RegNum)
  /-- ME.I2C rd, rs1 (R130). -/
  | meI2c (rd rs1 : RegNum)
  deriving DecidableEq, Repr

end Sys2Proof
end

