-- ==== Sys2Proof/Decode.lean ====
section
/-! DEFINITION. The decoder (R60 to R66), the encoder (R61, R63) and the opcode map as a table (R63). -/

namespace Sys2Proof

/-- Why a word selects no command (the cases of R65). Each raises ILLEGAL_CMD. -/
inductive IllegalWord where
  /-- `fam` is 0, 4, 5, 6 or 7. -/
  | family
  /-- `fam` selects a family, `fn` no command of it. -/
  | function
  /-- `fam:fn` selects a command, and a must-be-zero field is not zero. -/
  | mustBeZero
  deriving DecidableEq, Repr

/-- The fields of format R (R61). -/
def fieldFam (w : CmdWord) : BitVec 3 := w.extractLsb' 13 3
def fieldFn (w : CmdWord) : BitVec 4 := w.extractLsb' 9 4
def fieldRd (w : CmdWord) : RegNum := w.extractLsb' 6 3
def fieldRs1 (w : CmdWord) : RegNum := w.extractLsb' 3 3
def fieldRs2 (w : CmdWord) : RegNum := w.extractLsb' 0 3

/-- A command whose listed fields must be zero (R65). -/
def whenZero (mustBeZero : Bool) (i : Instr) : Except IllegalWord Instr :=
  if mustBeZero then .ok i else .error .mustBeZero

/-- Family GF, `fam = 1` (R63). -/
def decodeGf (w : CmdWord) : Except IllegalWord Instr :=
  let rd := fieldRd w
  let rs1 := fieldRs1 w
  let rs2 := fieldRs2 w
  match (fieldFn w).toNat with
  | 0 => whenZero (rd == 0 && rs2 == 0) (.gfInit rs1)
  | 1 => whenZero (rs2 == 0) (.gfElem rd rs1)
  | 2 => whenZero (rs2 == 0) (.gfLog rd rs1)
  | 3 => .ok (.gfAdd rd rs1 rs2)
  | 4 => .ok (.gfMul rd rs1 rs2)
  | 5 => .ok (.gfPow rd rs1 rs2)
  | _ => .error .function

/-- Family CC, `fam = 2` (R63). -/
def decodeCc (w : CmdWord) : Except IllegalWord Instr :=
  let rd := fieldRd w
  let rs1 := fieldRs1 w
  let rs2 := fieldRs2 w
  match (fieldFn w).toNat with
  | 0 => whenZero (rs2 == 0) (.ccEnc rd rs1)
  | 1 => whenZero (rs2 == 0) (.ccQuo rd rs1)
  | 2 => whenZero (rs2 == 0) (.ccSyn rd rs1)
  | 3 => whenZero (rs2 == 0) (.ccLoc rd rs1)
  | 4 => whenZero (rs2 == 0) (.ccDec rd rs1)
  | _ => .error .function

/-- Family ME, `fam = 3` (R63). -/
def decodeMe (w : CmdWord) : Except IllegalWord Instr :=
  let rd := fieldRd w
  let rs1 := fieldRs1 w
  let rs2 := fieldRs2 w
  match (fieldFn w).toNat with
  | 0 => .ok (.meExp rd rs1 rs2)
  | 1 => whenZero (rs2 == 0) (.meEncr rd rs1)
  | 2 => whenZero (rs2 == 0) (.meDecr rd rs1)
  | 3 => whenZero (rs2 == 0) (.meC2i rd rs1)
  | 4 => whenZero (rs2 == 0) (.meI2c rd rs1)
  | _ => .error .function

/-- The decoder: "by `fam` and `fn` first, then by the must-be-zero fields" (R64). Total on all words; a
rejection says which case of R65 it is. -/
def decode (w : CmdWord) : Except IllegalWord Instr :=
  match (fieldFam w).toNat with
  | 1 => decodeGf w
  | 2 => decodeCc w
  | 3 => decodeMe w
  | _ => .error .family

/-- A word of format R from its five fields (R61). -/
def formatR (fam : BitVec 3) (fn : BitVec 4) (rd rs1 rs2 : RegNum) : CmdWord :=
  fam ++ fn ++ rd ++ rs1 ++ rs2

/-- The encoder: the word of a command (R61, R63). -/
def encode : Instr → CmdWord
  | .gfInit rs1 => formatR 1 0 0 rs1 0
  | .gfElem rd rs1 => formatR 1 1 rd rs1 0
  | .gfLog rd rs1 => formatR 1 2 rd rs1 0
  | .gfAdd rd rs1 rs2 => formatR 1 3 rd rs1 rs2
  | .gfMul rd rs1 rs2 => formatR 1 4 rd rs1 rs2
  | .gfPow rd rs1 rs2 => formatR 1 5 rd rs1 rs2
  | .ccEnc rd rs1 => formatR 2 0 rd rs1 0
  | .ccQuo rd rs1 => formatR 2 1 rd rs1 0
  | .ccSyn rd rs1 => formatR 2 2 rd rs1 0
  | .ccLoc rd rs1 => formatR 2 3 rd rs1 0
  | .ccDec rd rs1 => formatR 2 4 rd rs1 0
  | .meExp rd rs1 rs2 => formatR 3 0 rd rs1 rs2
  | .meEncr rd rs1 => formatR 3 1 rd rs1 0
  | .meDecr rd rs1 => formatR 3 2 rd rs1 0
  | .meC2i rd rs1 => formatR 3 3 rd rs1 0
  | .meI2c rd rs1 => formatR 3 4 rd rs1 0

/-- A row of the opcode map: the word `w` selects the command exactly when `w & mask = pattern` (R63). -/
structure OpcodeRow where
  mnemonic : String
  pattern : CmdWord
  mask : CmdWord
  deriving DecidableEq, Repr

/-- The row of a command in the opcode map, in the map's own numbers (R63). The decoder does not use it: an
obligation says that the two agree. -/
def opcodeRow : Instr → OpcodeRow
  | .gfInit _ => ⟨"GF.INIT", 0x2000, 0xFFC7⟩
  | .gfElem _ _ => ⟨"GF.ELEM", 0x2200, 0xFE07⟩
  | .gfLog _ _ => ⟨"GF.LOG", 0x2400, 0xFE07⟩
  | .gfAdd _ _ _ => ⟨"GF.ADD", 0x2600, 0xFE00⟩
  | .gfMul _ _ _ => ⟨"GF.MUL", 0x2800, 0xFE00⟩
  | .gfPow _ _ _ => ⟨"GF.POW", 0x2A00, 0xFE00⟩
  | .ccEnc _ _ => ⟨"CC.ENC", 0x4000, 0xFE07⟩
  | .ccQuo _ _ => ⟨"CC.QUO", 0x4200, 0xFE07⟩
  | .ccSyn _ _ => ⟨"CC.SYN", 0x4400, 0xFE07⟩
  | .ccLoc _ _ => ⟨"CC.LOC", 0x4600, 0xFE07⟩
  | .ccDec _ _ => ⟨"CC.DEC", 0x4800, 0xFE07⟩
  | .meExp _ _ _ => ⟨"ME.EXP", 0x6000, 0xFE00⟩
  | .meEncr _ _ => ⟨"ME.ENCR", 0x6200, 0xFE07⟩
  | .meDecr _ _ => ⟨"ME.DECR", 0x6400, 0xFE07⟩
  | .meC2i _ _ => ⟨"ME.C2I", 0x6600, 0xFE07⟩
  | .meI2c _ _ => ⟨"ME.I2C", 0x6800, 0xFE07⟩

/-- The sixteen rows, in the map's order (R63). -/
def opcodeTable : List OpcodeRow :=
  [opcodeRow (.gfInit 0), opcodeRow (.gfElem 0 0), opcodeRow (.gfLog 0 0), opcodeRow (.gfAdd 0 0 0),
    opcodeRow (.gfMul 0 0 0), opcodeRow (.gfPow 0 0 0), opcodeRow (.ccEnc 0 0), opcodeRow (.ccQuo 0 0),
    opcodeRow (.ccSyn 0 0), opcodeRow (.ccLoc 0 0), opcodeRow (.ccDec 0 0), opcodeRow (.meExp 0 0 0),
    opcodeRow (.meEncr 0 0), opcodeRow (.meDecr 0 0), opcodeRow (.meC2i 0 0), opcodeRow (.meI2c 0 0)]

/-- The word of which the opcode table gives the low `nbits` bits, those above being 0: a command is one 16-bit
word (R67), so a number above 16 bits is no word. -/
def tableWord (nbits w : Nat) : Option CmdWord :=
  if w % 2 ^ nbits < 2 ^ 16 then some (BitVec.ofNat 16 (w % 2 ^ nbits)) else none

/-- The command the decoder reads from an opcode-table word of `nbits` bits. The unit has no byte order (R43): the
word is the data of one CMD transaction. -/
def decodeTableWord (nbits w : Nat) : Option Instr :=
  match tableWord nbits w with
  | some c => (decode c).toOption
  | none => none

end Sys2Proof
end

