-- ==== Sys2Proof/Machine/Bits.lean ====
section
/-! DEFINITION. Lengths, degrees and signed readings of register values (R11, R12). -/

namespace Sys2Proof.Machine

/-- `len(v)` of R11: one more than the index of the highest set bit; `len(0) = 0`. -/
def len (v : Nat) : Nat := if v = 0 then 0 else v.log2 + 1

/-- `deg(v)` of R11: the index of the highest set bit; `deg(0) = -1` (D17). -/
def deg (v : Nat) : Int := (len v : Int) - 1

/-- `sx(v)` of R12: the two's-complement reading of an XW-bit value. -/
def sx (xw : Nat) (v : Word) : Int :=
  if v.testBit (xw - 1) then (v : Int) - ((2 ^ xw : Nat) : Int) else (v : Int)

/-- `sext(k)` of R12: the XW-bit value whose signed reading is `k`. -/
def sext (xw : Nat) (k : Int) : Word :=
  if k < 0 then (k + ((2 ^ xw : Nat) : Int)).toNat else k.toNat

end Sys2Proof.Machine
end

