-- ==== Sys2Proof/Machine/Field.lean ====
section
/-! DEFINITION. The construction of the field table and the arithmetic of exponents (R82, R86, R88, R89). -/

namespace Sys2Proof.Machine

/-- The element after `e` in a field of degree `m` (R82, the loop body): shift left dropping bit `m - 1`, and XOR
the low-order bits of the generator if the dropped bit was 1 (C1: the shifted value has `m` bits). -/
def nextElement (g m e : Nat) : Nat :=
  if e.testBit (m - 1) then ((e <<< 1) % 2 ^ m) ^^^ (g % 2 ^ m) else (e <<< 1) % 2 ^ m

/-- `k` elements from `e` on, each the one after the last. -/
def elementsFrom (g m : Nat) : Nat → Nat → List Nat
  | 0, _ => []
  | k + 1, e => e :: elementsFrom g m k (nextElement g m e)

/-- The field table of a generator of degree `m` (R82): the zero element, then the elements of the exponents
`0 .. 2^m - 2`; `2^m` entries. -/
def buildTable (g m : Nat) : List Nat := 0 :: elementsFrom g m (2 ^ m - 1) 1

/-- `LOG(v)` of R86: the lowest index whose entry is `v`, minus one; none where the scan finds nothing. -/
def logIn (ft : List Nat) (v : Nat) : Option Int :=
  match ft.findIdx? (· == v) with
  | some j => some (Int.ofNat j - 1)
  | none => none

/-- A valid exponent of a field of degree `n` (R16): `-1 <= e <= 2^n - 2`. -/
abbrev ValidExponent (n : Nat) (e : Int) : Prop := -1 ≤ e ∧ e ≤ ((2 ^ n : Nat) : Int) - 2

/-- `MUL(a, b)` of R88, on valid exponents. -/
def mulExp (n : Nat) (a b : Int) : Int :=
  if a = -1 ∨ b = -1 then -1 else (a + b) % (((2 ^ n : Nat) : Int) - 1)

/-- `r = MUL(r, a)`, repeated (the loop of R89). -/
def mulRepeat (n : Nat) (a : Int) : Nat → Int → Int
  | 0, r => r
  | k + 1, r => mulRepeat n a k (mulExp n r a)

/-- The power of R89 as its pseudocode defines it, by the loop. -/
def powLoop (n : Nat) (a : Int) (p : Nat) : Int :=
  if p = 0 then 0 else if a = -1 ∨ a = 0 then a else mulRepeat n a (p - 1) a

/-- The power of R89 in the closed form R89 allows ("an implementation may compute that directly, the result is the
same", D29), which is what GF.POW computes here; an obligation says that it is `powLoop` (log 7). -/
def powExp (n : Nat) (a : Int) (p : Nat) : Int :=
  if p = 0 then 0 else if a = -1 ∨ a = 0 then a else (a * (p : Int)) % (((2 ^ n : Nat) : Int) - 1)

end Sys2Proof.Machine
end

