-- ==== Sys2Proof/Machine/Ops.lean ====
section
/-! DEFINITION. The shared operations: register access, fault entry and its only exit, the checks, the field table. -/

namespace Sys2Proof.Machine

/-- `X[i]` (R13, R20). -/
def readReg (s : State) (i : RegNum) : Word := s.x[i.toNat]'i.isLt

/-- `X[i] <- v` (R13, R20); no register is hardwired. -/
def writeReg (s : State) (i : RegNum) (v : Word) : State := { s with x := s.x.set i.toNat v i.isLt }

/-- The code of a fault cause (R141). -/
def causeCode : Cause → BitVec 4
  | .illegalCmd => 1
  | .noField => 2
  | .reinit => 3
  | .badGenerator => 4
  | .badExponent => 5
  | .badElement => 6
  | .notInTable => 7
  | .encOverflow => 8
  | .badModexpOperand => 9
  | .notInAlphabet => 10
  | .badAlphabetValue => 11

/-- Fault entry (R143), the unit's only exception entry: `FAULTED <- 1`, `CAUSE <- code`, `FINFO <- w`, and nothing
else changes. -/
def takeFault (s : State) (c : Cause) (w : CmdWord) : State :=
  { s with faulted := true, cause := causeCode c, finfo := w }

/-- The return from the faulted state: there is none but RESET (R145), which leaves the reset state of R33 and R160
in every state (R56). The constants stay, and so do the host's two lists (log 1). -/
def resetUnit (s : State) : State :=
  { State.atReset s.cfg with pending := s.pending, returned := s.returned }

/-- `raise Fault(C)` during command `i` (R13, R143). FINFO gets the word of the command: `encode i` is the one word
that decodes to `i` (log 6). -/
def raise (i : Instr) (c : Cause) (s : State) : Result := .next (takeFault s c (encode i))

/-- Step 1 of R142: while FAULTED = 1 a CMD or WRX has no effect (R144). -/
def unlessFaulted (s : State) (k : Result) : Result := if s.faulted then .next s else k

/-- A check of command `i`: go on if `ok` holds, else raise the cause (R142). -/
def check (ok : Prop) [Decidable ok] (i : Instr) (c : Cause) (s : State) (k : Result) : Result :=
  if ok then k else raise i c s

/-- The field-ready check (R80, R100). -/
def needField (i : Instr) (s : State) (k : Result) : Result := check (s.ready = true) i .noField s k

/-- `FT[j]` (R13, R28). An entry that holds no value cannot be read (R161, U6). -/
def readTable (s : State) (j : Nat) (k : Nat → Result) : Result :=
  match s.ft[j]? with
  | some e => k e
  | none => .fault (.tableEntryUnspecified j)

/-- The lookup `LOG(v)` in the field table; NOT_IN_TABLE where no entry equals `v` (R86). -/
def needLog (i : Instr) (s : State) (v : Nat) (k : Int → Result) : Result :=
  match logIn s.ft v with
  | some e => k e
  | none => raise i .notInTable s

/-- The effect of a GF.INIT that passes its checks (R82): the table, GEN, NDEG and READY, together (R27). -/
def installField (s : State) (g : Nat) : State :=
  { s with gen := g, ndeg := len g - 1, ft := buildTable g (len g - 1), ready := true }

/-- The value a read transaction returns, at the end of the host's list (R70). -/
def returnValue (s : State) (v : Word) : State := { s with returned := s.returned ++ [v] }

end Sys2Proof.Machine
end

