-- ==== Sys2Proof/Machine/Operands.lean ====
section
/-! DEFINITION. The operand kinds of R62: how a command reads a source register, and what the value must be. -/

namespace Sys2Proof.Machine

/-- A polynomial operand: the register value, "every value is legal" (R62, R100). -/
def polynomial (s : State) (r : RegNum) : Nat := readReg s r

/-- A count operand: "unsigned integer, any value" (R62). -/
def count (s : State) (r : RegNum) : Nat := readReg s r

/-- A character-code operand: the whole register value (R62, R129). -/
def characterCode (s : State) (r : RegNum) : Nat := readReg s r

/-- An alphabet-value operand (R62, R130). -/
def alphabetValue (s : State) (r : RegNum) : Nat := readReg s r

/-- The signed reading of a register (R12, R81). -/
def signedReg (s : State) (r : RegNum) : Int := sx s.cfg.xw (readReg s r)

/-- An exponent operand: signed, in `[-1, 2^n - 2]`, else BAD_EXPONENT (R62, R81). -/
def needExponent (i : Instr) (s : State) (r : RegNum) (k : Int → Result) : Result :=
  check (ValidExponent s.ndeg (signedReg s r)) i .badExponent s (k (signedReg s r))

/-- An element operand: below `2^n`, else BAD_ELEMENT (R62, R86). -/
def needElement (i : Instr) (s : State) (r : RegNum) (k : Nat → Result) : Result :=
  check (readReg s r < 2 ^ s.ndeg) i .badElement s (k (readReg s r))

/-- A residue operand: below KN, else BAD_MODEXP_OPERAND (R62, R121). -/
def needResidue (i : Instr) (s : State) (r : RegNum) (k : Nat → Result) : Result :=
  check (readReg s r < s.cfg.kn) i .badModexpOperand s (k (readReg s r))

/-- A modexp-exponent operand: at least 1, else BAD_MODEXP_OPERAND (R62, R121). -/
def needModexpExponent (i : Instr) (s : State) (r : RegNum) (k : Nat → Result) : Result :=
  check (1 ≤ readReg s r) i .badModexpOperand s (k (readReg s r))

/-- An exponent result, written as `sext` (R62, R81). -/
def writeExponent (s : State) (rd : RegNum) (e : Int) : State := writeReg s rd (sext s.cfg.xw e)

end Sys2Proof.Machine
end

