-- ==== Sys2Proof/Machine/Poly.lean ====
section
/-! DEFINITION. Polynomials over GF(2) as unsigned integers, bit `i` the coefficient of `x^i` (R10, R14, R15). -/

namespace Sys2Proof.Machine

/-- `pmul(a, b)` of R14: convolution with XOR accumulation. -/
def pmul (a b : Nat) : Nat :=
  (List.range (len b)).foldl (fun r i => if b.testBit i then r ^^^ (a <<< i) else r) 0

/-- The loop of `pdivmod` (R15): while `deg(r) >= deg(g)`, XOR the aligned generator and record the quotient bit.
The first argument bounds the number of steps. -/
def pdivLoop (g : Nat) : Nat → Nat → Nat → Nat × Nat
  | 0, q, r => (q, r)
  | fuel + 1, q, r =>
    if len g ≤ len r then
      pdivLoop g fuel (q ||| (1 <<< (len r - len g))) (r ^^^ (g <<< (len r - len g)))
    else (q, r)

/-- `pdivmod(a, g)` of R15, for `g != 0`: quotient and remainder. Each step lowers `deg(r)`, so `len(a)` steps are
enough (R165: at most `len(r) - n` steps; log 12). -/
def pdivmod (a g : Nat) : Nat × Nat := pdivLoop g (len a) 0 a

/-- `pquo(a, g)` of R15. -/
def pquo (a g : Nat) : Nat := (pdivmod a g).1

/-- `pmod(a, g)` of R15. -/
def pmod (a g : Nat) : Nat := (pdivmod a g).2

end Sys2Proof.Machine
end

