-- ==== Sys2Proof/Machine/CcFamily.lean ====
section
/-! DEFINITION. The CC family: encoder, divider, error locator and decoder (R100 to R105). -/

namespace Sys2Proof.Machine

/-- CC.ENC rd, rs1 (R101): the product with the generator, if it fits in XW bits. -/
def execCcEnc (rd rs1 : RegNum) (s : State) : Result :=
  unlessFaulted s <|
  needField (.ccEnc rd rs1) s <|
  check (len (pmul (polynomial s rs1) s.gen) ≤ s.cfg.xw) (.ccEnc rd rs1) .encOverflow s <|
  .next (writeReg s rd (pmul (polynomial s rs1) s.gen))

/-- CC.QUO rd, rs1 (R102). -/
def execCcQuo (rd rs1 : RegNum) (s : State) : Result :=
  unlessFaulted s <|
  needField (.ccQuo rd rs1) s <|
  .next (writeReg s rd (pquo (polynomial s rs1) s.gen))

/-- CC.SYN rd, rs1 (R103). -/
def execCcSyn (rd rs1 : RegNum) (s : State) : Result :=
  unlessFaulted s <|
  needField (.ccSyn rd rs1) s <|
  .next (writeReg s rd (pmod (polynomial s rs1) s.gen))

/-- CC.LOC rd, rs1 (R104). -/
def execCcLoc (rd rs1 : RegNum) (s : State) : Result :=
  unlessFaulted s <|
  needField (.ccLoc rd rs1) s <|
  needLog (.ccLoc rd rs1) s (pmod (polynomial s rs1) s.gen) fun e =>
  .next (writeExponent s rd e)

/-- CC.DEC rd, rs1 (R105): divide; if the syndrome is not zero, flip the located bit of the RECEIVED WORD (C2) and
divide again. -/
def execCcDec (rd rs1 : RegNum) (s : State) : Result :=
  unlessFaulted s <|
  needField (.ccDec rd rs1) s <|
  if pmod (polynomial s rs1) s.gen = 0 then
    .next (writeCorr (writeReg s rd (pquo (polynomial s rs1) s.gen)) false)
  else
    needLog (.ccDec rd rs1) s (pmod (polynomial s rs1) s.gen) fun e =>
    .next (writeCorr (writeReg s rd (pquo (polynomial s rs1 ^^^ (1 <<< e.toNat)) s.gen)) true)

end Sys2Proof.Machine
end

