-- ==== Sys2Proof/Machine/GfFamily.lean ====
section
/-! DEFINITION. The GF family: field construction and field arithmetic on exponents (R82 to R89).

Every command first ignores itself in the faulted state (step 1 of R142), then makes its state check, its operand
checks `rs1` before `rs2`, and its result checks; it writes only when all have passed (R13). -/

namespace Sys2Proof.Machine

/-- GF.INIT rs1 (R82, R83). -/
def execGfInit (rs1 : RegNum) (s : State) : Result :=
  unlessFaulted s <|
  check (s.ready = false) (.gfInit rs1) .reinit s <|
  check (1 ≤ deg (polynomial s rs1) ∧ deg (polynomial s rs1) ≤ s.cfg.nmax) (.gfInit rs1) .badGenerator s <|
  .next (installField s (polynomial s rs1))

/-- GF.ELEM rd, rs1 (R85). -/
def execGfElem (rd rs1 : RegNum) (s : State) : Result :=
  unlessFaulted s <|
  needField (.gfElem rd rs1) s <|
  needExponent (.gfElem rd rs1) s rs1 fun e =>
  readTable s (e + 1).toNat fun v =>
  .next (writeReg s rd v)

/-- GF.LOG rd, rs1 (R86). -/
def execGfLog (rd rs1 : RegNum) (s : State) : Result :=
  unlessFaulted s <|
  needField (.gfLog rd rs1) s <|
  needElement (.gfLog rd rs1) s rs1 fun v =>
  needLog (.gfLog rd rs1) s v fun e =>
  .next (writeExponent s rd e)

/-- GF.ADD rd, rs1, rs2 (R87). -/
def execGfAdd (rd rs1 rs2 : RegNum) (s : State) : Result :=
  unlessFaulted s <|
  needField (.gfAdd rd rs1 rs2) s <|
  needExponent (.gfAdd rd rs1 rs2) s rs1 fun a =>
  needExponent (.gfAdd rd rs1 rs2) s rs2 fun b =>
  readTable s (a + 1).toNat fun u =>
  readTable s (b + 1).toNat fun v =>
  needLog (.gfAdd rd rs1 rs2) s (u ^^^ v) fun e =>
  .next (writeExponent s rd e)

/-- GF.MUL rd, rs1, rs2 (R88). -/
def execGfMul (rd rs1 rs2 : RegNum) (s : State) : Result :=
  unlessFaulted s <|
  needField (.gfMul rd rs1 rs2) s <|
  needExponent (.gfMul rd rs1 rs2) s rs1 fun a =>
  needExponent (.gfMul rd rs1 rs2) s rs2 fun b =>
  .next (writeExponent s rd (mulExp s.ndeg a b))

/-- GF.POW rd, rs1, rs2 (R89). -/
def execGfPow (rd rs1 rs2 : RegNum) (s : State) : Result :=
  unlessFaulted s <|
  needField (.gfPow rd rs1 rs2) s <|
  needExponent (.gfPow rd rs1 rs2) s rs1 fun a =>
  .next (writeExponent s rd (powExp s.ndeg a (count s rs2)))

end Sys2Proof.Machine
end

