-- ==== Sys2Proof/Machine/CharMap.lean ====
section
/-! DEFINITION. The alphabet ROM and its two lookups (R30, R127 to R130). -/

namespace Sys2Proof.Machine

/-- `k` character codes from `first` on. -/
def codesFrom (first k : Nat) : List CharCode := (List.range k).map (fun j => BitVec.ofNat 8 (first + j))

/-- The alphabet ROM ALPHA (R30, R127): a to z, A to Z, 0 to 9, then space, full stop, comma, question mark and
exclamation mark, by their ASCII codes (R128; PRESUMED by the spec itself, log 14). -/
def alpha : List CharCode :=
  codesFrom 0x61 26 ++ codesFrom 0x41 26 ++ codesFrom 0x30 10 ++ [0x20, 0x2E, 0x2C, 0x3F, 0x21]

/-- charToInt (R129): the whole register value is compared with each code from index 0 up; index + 2. -/
def charToInt (k : Word) : Option Nat := (alpha.findIdx? (fun c => c.toNat == k)).map (· + 2)

/-- intToChar (R130): the code at index `v - 2`, for `v` in 2..68 only. -/
def intToChar (v : Word) : Option CharCode := if 2 ≤ v ∧ v ≤ 68 then alpha[v - 2]? else none

end Sys2Proof.Machine
end

