-- ==== Sys2Proof/Machine/ModExp.lean ====
section
/-! DEFINITION. The square-and-multiply engine MEX (R17, R122, R126). -/

namespace Sys2Proof.Machine

/-- `mulmod(a, b)` of R17, the product taken in unbounded integers (R126). -/
def mulmod (kn a b : Nat) : Nat := (a * b) % kn

/-- The loop of `SQM` (R122) over the `k` low bits of the exponent, the highest first: a square, then a multiply
when the bit is 1. -/
def sqmLoop (kn num exp : Nat) : Nat → Nat → Nat
  | 0, acc => acc
  | k + 1, acc =>
    sqmLoop kn num exp k
      (if exp.testBit k then mulmod kn (mulmod kn acc acc) num else mulmod kn acc acc)

/-- `SQM(num, exp)` of R122, for `num < KN` and `exp >= 1`: the leading bit's multiply is implicit, so the loop
starts from `num` below it. -/
def sqm (kn num exp : Nat) : Nat := sqmLoop kn num exp (len exp - 1) num

end Sys2Proof.Machine
end

