-- ==== Sys2Proof/Machine/MeFamily.lean ====
section
/-! DEFINITION. The ME family: modular exponentiation and the character map (R120 to R130). None reads READY, GEN,
NDEG or the field table, and none writes a flag (R120). -/

namespace Sys2Proof.Machine

/-- ME.EXP rd, rs1, rs2 (R123). -/
def execMeExp (rd rs1 rs2 : RegNum) (s : State) : Result :=
  unlessFaulted s <|
  needResidue (.meExp rd rs1 rs2) s rs1 fun num =>
  needModexpExponent (.meExp rd rs1 rs2) s rs2 fun exp =>
  .next (writeReg s rd (sqm s.cfg.kn num exp))

/-- ME.ENCR rd, rs1 (R124). -/
def execMeEncr (rd rs1 : RegNum) (s : State) : Result :=
  unlessFaulted s <|
  needResidue (.meEncr rd rs1) s rs1 fun num =>
  .next (writeReg s rd (sqm s.cfg.kn num s.cfg.ke))

/-- ME.DECR rd, rs1 (R125). -/
def execMeDecr (rd rs1 : RegNum) (s : State) : Result :=
  unlessFaulted s <|
  needResidue (.meDecr rd rs1) s rs1 fun num =>
  .next (writeReg s rd (sqm s.cfg.kn num s.cfg.kd))

/-- ME.C2I rd, rs1 (R129). -/
def execMeC2i (rd rs1 : RegNum) (s : State) : Result :=
  unlessFaulted s <|
  match charToInt (characterCode s rs1) with
  | some v => .next (writeReg s rd v)
  | none => raise (.meC2i rd rs1) .notInAlphabet s

/-- ME.I2C rd, rs1 (R130). -/
def execMeI2c (rd rs1 : RegNum) (s : State) : Result :=
  unlessFaulted s <|
  match intToChar (alphabetValue s rs1) with
  | some c => .next (writeReg s rd c.toNat)
  | none => raise (.meI2c rd rs1) .badAlphabetValue s

end Sys2Proof.Machine
end

