-- ==== Sys2Proof/Machine/Dispatch.lean ====
section
/-! DEFINITION. One arm per command (R63): each calls the command's meaning. -/

namespace Sys2Proof.Machine

def exec (i : Instr) (s : State) : Host.Outcome State Fault Refusal :=
  match i with
  | .gfInit rs1 => Sys2Proof.Machine.execGfInit rs1 s
  | .gfElem rd rs1 => Sys2Proof.Machine.execGfElem rd rs1 s
  | .gfLog rd rs1 => Sys2Proof.Machine.execGfLog rd rs1 s
  | .gfAdd rd rs1 rs2 => Sys2Proof.Machine.execGfAdd rd rs1 rs2 s
  | .gfMul rd rs1 rs2 => Sys2Proof.Machine.execGfMul rd rs1 rs2 s
  | .gfPow rd rs1 rs2 => Sys2Proof.Machine.execGfPow rd rs1 rs2 s
  | .ccEnc rd rs1 => Sys2Proof.Machine.execCcEnc rd rs1 s
  | .ccQuo rd rs1 => Sys2Proof.Machine.execCcQuo rd rs1 s
  | .ccSyn rd rs1 => Sys2Proof.Machine.execCcSyn rd rs1 s
  | .ccLoc rd rs1 => Sys2Proof.Machine.execCcLoc rd rs1 s
  | .ccDec rd rs1 => Sys2Proof.Machine.execCcDec rd rs1 s
  | .meExp rd rs1 rs2 => Sys2Proof.Machine.execMeExp rd rs1 rs2 s
  | .meEncr rd rs1 => Sys2Proof.Machine.execMeEncr rd rs1 s
  | .meDecr rd rs1 => Sys2Proof.Machine.execMeDecr rd rs1 s
  | .meC2i rd rs1 => Sys2Proof.Machine.execMeC2i rd rs1 s
  | .meI2c rd rs1 => Sys2Proof.Machine.execMeI2c rd rs1 s

end Sys2Proof.Machine
end

