-- ==== Sys2Proof/Machine/Port.lean ====
section
/-! DEFINITION. The port: the control registers as the host reads them, the five transactions, and the host's list
(R24, R55 to R60, R70). -/

namespace Sys2Proof.Machine

/-- The content of control register `c` (the table of R24); 10 to 15 read as 0. -/
def controlRegister (s : State) (c : CtlNum) : Nat :=
  match c.toNat with
  | 0 => (statusWord s).toNat
  | 1 => s.cause.toNat
  | 2 => s.finfo.toNat
  | 3 => s.gen
  | 4 => s.ndeg
  | 5 => s.cfg.kn
  | 6 => s.cfg.ke
  | 7 => s.cfg.kd
  | 8 => s.cfg.nmax
  | 9 => s.cfg.xw
  | _ => 0

/-- What RDC `c` returns: the control register "zero-extended to XW bits" (R24, R59). It has "up to XW" bits in
every unit that meets R40 (`Config.ControlRegistersFit`), and then the first case holds. Where its value has more than XW
bits no result is stated: an XW-bit free value (DESIGN CHOICE, log 5). -/
def readControl (s : State) (c : CtlNum) : Word :=
  if controlRegister s c < 2 ^ s.cfg.xw then controlRegister s c
  else Config.wideRead c (controlRegister s c) s.cfg.xw % 2 ^ s.cfg.xw

/-- CMD w (R60): the word is decoded and its command executed; a word that selects no command raises ILLEGAL_CMD
(R65). Either has no effect while FAULTED = 1 (R144; `exec` makes that check itself). -/
def performCmd (w : CmdWord) (s : State) : Result :=
  match decode w with
  | .ok i => exec i s
  | .error _ => unlessFaulted s (.next (takeFault s .illegalCmd w))

/-- WRX i, v (R57). A value of more than XW bits is no transaction of this port (R55, R76; log 3). -/
def performWrx (i : RegNum) (v : Word) (s : State) : Result :=
  if v < 2 ^ s.cfg.xw then unlessFaulted s (.next (writeReg s i v)) else .refused (.wrxValueTooWide i v)

/-- One transaction (R55). -/
def perform (t : Transaction) (s : State) : Result :=
  match t with
  | .reset => .next (resetUnit s)
  | .wrx i v => performWrx i v s
  | .rdx i => .next (returnValue s (readReg s i))
  | .rdc c => .next (returnValue s (readControl s c))
  | .cmd w => performCmd w s

/-- The host issues the next transaction of its list (R70); when the list is exhausted the unit is idle and keeps all
state (R152; log 8). -/
def serveHost (s : State) : Result :=
  match s.pending with
  | [] => .next s
  | t :: rest => perform t { s with pending := rest }

/-- A state of which the host issues transaction `t` next. -/
def issueNext (t : Transaction) (s : State) : State := { s with pending := t :: s.pending }

/-- A state whose host has the given list of transactions still to issue: a program is loaded from outside the unit
(R22, R70; log 1). -/
def loadProgram (ts : List Transaction) (s : State) : State := { s with pending := ts }

end Sys2Proof.Machine
end

