-- ==== Sys2Proof/Machine/Step.lean ====
section
/-! DEFINITION. One step of the machine: one transaction of the host (R49, R55). -/

namespace Sys2Proof.Machine

/-- One step: the next transaction of the host's list, performed whole (R49). -/
def step (s : State) : Host.Outcome State Fault Refusal := serveHost s

/-- The state whose next transaction is the CMD that carries the opcode-table word `w` of `nbits` bits (the unit
fetches nothing: a command word is data of its CMD, R22, R52). A number that is no 16-bit word places nothing. -/
def State.withFetchWord (s : State) (nbits w : Nat) : State :=
  match tableWord nbits w with
  | some c => issueNext (.cmd c) s
  | none => s

end Sys2Proof.Machine
end

