-- ==== Sys2Proof/WellFormed.lean ====
section
/-! DEFINITION. What the spec asks of a configuration and of a transaction before they mean anything.

Every term of `Instr` is well formed: its arguments are exactly the 3-bit register fields of its word, each of
which "always names a register" (R44), and the must-be-zero fields are no arguments. So statements about
commands hold for every `Instr`, with no premise. -/

namespace Sys2Proof

/-- The width constraints of R6, as R7 explains them, with the lower bounds R6 sets on KN, KE, KD. The number-theoretic
constraints on KN, KE, KD are `Config.CipherParameters` in Safety.lean. -/
abbrev Config.WellFormed (c : Config) : Prop :=
  1 ≤ c.nmax ∧ 2 ^ c.nmax - 1 ≤ c.xw ∧ c.nmax + 1 ≤ c.xw ∧ Machine.len c.kn ≤ c.xw ∧ 8 ≤ c.xw ∧
    69 ≤ c.kn ∧ 1 ≤ c.ke ∧ 1 ≤ c.kd

/-- The entry width of R40 for the control registers, "up to XW", where R6 does not give it: KE and KD fit in XW bits, and
so do the 16 bits of FINFO (R24, R26). R6 admits units that do not meet it, so it is no part of `WellFormed` (DEDUCED,
log 20). The other control registers are within XW bits by R6 and the invariant. -/
abbrev Config.ControlRegistersFit (c : Config) : Prop :=
  Machine.len c.ke ≤ c.xw ∧ Machine.len c.kd ≤ c.xw ∧ 16 ≤ c.xw

/-- A transaction the port can carry: the value of a WRX has at most XW bits (R55, R76). -/
def Machine.Transaction.wellFormed (c : Config) : Machine.Transaction → Bool
  | .reset => true
  | .wrx _ v => decide (v < 2 ^ c.xw)
  | .rdx _ => true
  | .rdc _ => true
  | .cmd _ => true

end Sys2Proof
end

