-- ==== Sys2Proof/Safety.lean ====
section
/-! DEFINITION. The terms claims are stated in: the invariant, the named premises of the spec, kinds of command. -/

namespace Sys2Proof

/-- The number-theoretic constraints on KN, KE, KD (R6): KN is a product of two distinct primes, and KE·KD is 1 modulo
(KP-1)(KQ-1). -/
def Config.CipherParameters (c : Config) : Prop :=
  ∃ p q : Nat, p.Prime ∧ q.Prime ∧ p ≠ q ∧ c.kn = p * q ∧ c.ke * c.kd ≡ 1 [MOD (p - 1) * (q - 1)]

end Sys2Proof

namespace Sys2Proof.Machine

/-- Every data register holds an XW-bit value (R20). -/
abbrev State.RegistersFit (s : State) : Prop := ∀ i : RegNum, readReg s i < 2 ^ s.cfg.xw

/-- CAUSE and FINFO hold the one fault record, or 0 while FAULTED = 0 (R26, R141). -/
abbrev State.FaultRecord (s : State) : Prop :=
  if s.faulted then 1 ≤ s.cause.toNat ∧ s.cause.toNat ≤ 11 else s.cause = 0 ∧ s.finfo = 0

/-- While READY = 1, GEN has degree NDEG in `1 .. NMAX` and FT is the table built from it (R25, R27, R28, R32); while
READY = 0 all three are as after reset (R27, R161), and so is CORR, which only CC.DEC writes (R23). -/
abbrev State.FieldRecord (s : State) : Prop :=
  if s.ready then
    1 ≤ s.ndeg ∧ s.ndeg ≤ s.cfg.nmax ∧ len s.gen = s.ndeg + 1 ∧ s.ft = buildTable s.gen s.ndeg
  else s.gen = 0 ∧ s.ndeg = 0 ∧ s.ft = [] ∧ s.corr = false

/-- The host's lists hold values and transactions the port can carry (R55, R76). -/
abbrev State.PortFits (s : State) : Prop :=
  (∀ v ∈ s.returned, v < 2 ^ s.cfg.xw) ∧ ∀ t ∈ s.pending, t.wellFormed s.cfg = true

/-- The invariant of the machine: it holds after reset, and every step keeps it. -/
abbrev State.Inv (s : State) : Prop :=
  s.cfg.WellFormed ∧ s.RegistersFit ∧ s.FaultRecord ∧ s.FieldRecord ∧ s.PortFits

/-- The canonical form of the field table: no entry before GF.INIT, then exactly the `2 ^ n` valid entries, each an
n-bit element (R28). -/
abbrev State.TableWf (s : State) : Prop :=
  if s.ready then s.ft.length = 2 ^ s.ndeg ∧ ∀ e ∈ s.ft, e < 2 ^ s.ndeg else s.ft = []

/-- The unit is ready for a field or codec command: not faulted, field built (R162). -/
abbrev State.FieldReady (s : State) : Prop := s.Inv ∧ s.faulted = false ∧ s.ready = true

/-- The element reached from 1 after `k` steps of the construction of R82. -/
def elementAfter (g m k : Nat) : Nat := (nextElement g m)^[k] 1

/-- The premise PrimitiveGenerator (R8, R84), by the test R84(c) gives for it: the sequence of R82, "continued one step
past the table, returns to 1 for the first time at that step" (PRESUMED by the spec itself: general knowledge G3;
log 10). -/
abbrev PrimitiveGenerator (g : Nat) : Prop :=
  1 ≤ deg g ∧ elementAfter g (len g - 1) (2 ^ (len g - 1) - 1) = 1 ∧
    ∀ k < 2 ^ (len g - 1) - 1, 0 < k → elementAfter g (len g - 1) k ≠ 1

/-- The commands that need the field table or the generator: row 2 of R141. -/
def needsField : Instr → Bool
  | .gfInit _ => false
  | .gfElem _ _ | .gfLog _ _ | .gfAdd _ _ _ | .gfMul _ _ _ | .gfPow _ _ _ => true
  | .ccEnc _ _ | .ccQuo _ _ | .ccSyn _ _ | .ccLoc _ _ | .ccDec _ _ => true
  | .meExp _ _ _ | .meEncr _ _ | .meDecr _ _ | .meC2i _ _ | .meI2c _ _ => false

/-- The commands of family ME. -/
def isMe : Instr → Bool
  | .meExp _ _ _ | .meEncr _ _ | .meDecr _ _ | .meC2i _ _ | .meI2c _ _ => true
  | .gfInit _ | .gfElem _ _ | .gfLog _ _ | .gfAdd _ _ _ | .gfMul _ _ _ | .gfPow _ _ _ => false
  | .ccEnc _ _ | .ccQuo _ _ | .ccSyn _ _ | .ccLoc _ _ | .ccDec _ _ => false

/-- The destination register of a command; GF.INIT has none (R62). -/
def destination : Instr → Option RegNum
  | .gfInit _ => none
  | .gfElem rd _ | .gfLog rd _ | .ccEnc rd _ | .ccQuo rd _ | .ccSyn rd _ | .ccLoc rd _ | .ccDec rd _ => some rd
  | .meEncr rd _ | .meDecr rd _ | .meC2i rd _ | .meI2c rd _ => some rd
  | .gfAdd rd _ _ | .gfMul rd _ _ | .gfPow rd _ _ | .meExp rd _ _ => some rd

/-- The source registers of a command (R62). -/
def sources : Instr → List RegNum
  | .gfInit r | .gfElem _ r | .gfLog _ r | .ccEnc _ r | .ccQuo _ r | .ccSyn _ r | .ccLoc _ r | .ccDec _ r => [r]
  | .meEncr _ r | .meDecr _ r | .meC2i _ r | .meI2c _ r => [r]
  | .gfAdd _ r r' | .gfMul _ r r' | .gfPow _ r r' | .meExp _ r r' => [r, r']

/-- The causes a command may raise once its word is legal (the column "raised by" of R141). -/
def causesOf : Instr → List Cause
  | .gfInit _ => [.reinit, .badGenerator]
  | .gfElem _ _ => [.noField, .badExponent]
  | .gfLog _ _ => [.noField, .badElement, .notInTable]
  | .gfAdd _ _ _ => [.noField, .badExponent, .notInTable]
  | .gfMul _ _ _ => [.noField, .badExponent]
  | .gfPow _ _ _ => [.noField, .badExponent]
  | .ccEnc _ _ => [.noField, .encOverflow]
  | .ccQuo _ _ => [.noField]
  | .ccSyn _ _ => [.noField]
  | .ccLoc _ _ => [.noField, .notInTable]
  | .ccDec _ _ => [.noField, .notInTable]
  | .meExp _ _ _ => [.badModexpOperand]
  | .meEncr _ _ => [.badModexpOperand]
  | .meDecr _ _ => [.badModexpOperand]
  | .meC2i _ _ => [.notInAlphabet]
  | .meI2c _ _ => [.badAlphabetValue]

/-- A run that has ended successfully (R167): the host's list is exhausted and the unit is not faulted. -/
abbrev State.Successful (s : State) : Prop := s.pending = [] ∧ s.faulted = false

end Sys2Proof.Machine
end

