-- ==== Sys2Proof/Certificates/Slice0/Obligations.lean ====
section
/-! DEFINITION. The statements for the provers, from the numbered rules of spec/. Each docstring names the rule.

`takeFault`, `writeReg` and `writeExponent` in a conclusion are the model's own operations; what each leaves is stated in
`FaultEntryWritesTheRecordOnly` and `RegisterWriteChangesOneRegister`. -/

open Sys2Proof Sys2Proof.Machine

/-! ### Encoding -/

/-- R61, R63: the word of a command decodes to that command, for every command and every register number. -/
def Obligations.DecodeInvertsEncode : Prop :=
  ∀ i : Instr, decode (encode i) = .ok i

/-- R61, R63: a word that decodes to a command is that command's word, so FINFO (R26) can be given by `encode`. -/
def Obligations.EncodeInvertsDecode : Prop :=
  ∀ (w : CmdWord) (i : Instr), decode w = .ok i → encode i = w

/-- R61: the word is `fam<<13 | fn<<9 | rd<<6 | rs1<<3 | rs2`, and each field reads back from its bits. -/
def Obligations.FormatRPlacesItsFields : Prop :=
  ∀ (fam : BitVec 3) (fn : BitVec 4) (rd rs1 rs2 : RegNum),
    (formatR fam fn rd rs1 rs2).toNat =
      fam.toNat <<< 13 ||| fn.toNat <<< 9 ||| rd.toNat <<< 6 ||| rs1.toNat <<< 3 ||| rs2.toNat ∧
    fieldFam (formatR fam fn rd rs1 rs2) = fam ∧ fieldFn (formatR fam fn rd rs1 rs2) = fn ∧
    fieldRd (formatR fam fn rd rs1 rs2) = rd ∧ fieldRs1 (formatR fam fn rd rs1 rs2) = rs1 ∧
    fieldRs2 (formatR fam fn rd rs1 rs2) = rs2

/-- R63: a word selects the command of a row exactly when `w & mask = match`. -/
def Obligations.MatchAndMaskSelectTheCommand : Prop :=
  ∀ w : CmdWord, ∀ r ∈ opcodeTable,
    (∃ i, decode w = .ok i ∧ opcodeRow i = r) ↔ w &&& r.mask = r.pattern

/-- R64: `fam:fn` (mask 0xFE00) is part of every mask, and two commands never match the same word
(the spec's own inference: "[derived: from rule R63]"). -/
def Obligations.OpcodeRowsAreDisjoint : Prop :=
  ∀ r₁ ∈ opcodeTable, ∀ r₂ ∈ opcodeTable, r₁ ≠ r₂ →
    r₁.mask &&& 0xFE00#16 = 0xFE00#16 ∧ r₁.pattern &&& 0xFE00#16 ≠ r₂.pattern &&& 0xFE00#16 ∧
    ∀ w : CmdWord, ¬(w &&& r₁.mask = r₁.pattern ∧ w &&& r₂.mask = r₂.pattern)

/-- R65, R66: a word that matches no row raises ILLEGAL_CMD whatever READY and the registers are; and the words that
match no row are those R65 lists. -/
def Obligations.IllegalWordsRaiseIllegalCmd : Prop :=
  (∀ (w : CmdWord) (s : State) (rest : List Transaction),
    (∀ r ∈ opcodeTable, w &&& r.mask ≠ r.pattern) → s.pending = .cmd w :: rest → s.faulted = false →
      step s = .next { s with pending := rest, faulted := true, cause := 1, finfo := w }) ∧
  ∀ w : CmdWord, (∀ r ∈ opcodeTable, w &&& r.mask ≠ r.pattern) ↔
    (fieldFam w = 0 ∨ 4 ≤ (fieldFam w).toNat) ∨
    (fieldFam w = 1 ∧ 6 ≤ (fieldFn w).toNat) ∨
    (fieldFam w = 2 ∧ 5 ≤ (fieldFn w).toNat) ∨
    (fieldFam w = 3 ∧ 5 ≤ (fieldFn w).toNat) ∨
    (fieldFam w = 1 ∧ fieldFn w = 0 ∧ (fieldRd w ≠ 0 ∨ fieldRs2 w ≠ 0)) ∨
    (fieldFam w = 1 ∧ (fieldFn w = 1 ∨ fieldFn w = 2) ∧ fieldRs2 w ≠ 0) ∨
    (fieldFam w = 2 ∧ (fieldFn w).toNat ≤ 4 ∧ fieldRs2 w ≠ 0) ∨
    (fieldFam w = 3 ∧ 1 ≤ (fieldFn w).toNat ∧ (fieldFn w).toNat ≤ 4 ∧ fieldRs2 w ≠ 0)

/-- 95_test_vectors.md, section 2.4: some words and the commands they decode to, one or more of each family. -/
def Obligations.SampleWordsDecode : Prop :=
  decode 0x2008 = .ok (.gfInit 1) ∧ decode 0x2713 = .ok (.gfAdd 4 2 3) ∧
  decode 0x49E0 = .ok (.ccDec 7 4) ∧ decode 0x60CA = .ok (.meExp 3 1 2) ∧
  decode 0x2048 = .error .mustBeZero ∧ decode 0x2C00 = .error .function ∧ decode 0xFFFF = .error .family

/-! ### The port -/

/-- R60, R70: when the next transaction is a CMD whose word decodes, the step is the command's execution on the state
with that transaction taken from the host's list; a word placed by `withFetchWord` is such a CMD; and with nothing pending
the unit keeps all state (R152; the model's reading, log 8). -/
def Obligations.StepRunsTheDecodedCommand : Prop :=
  (∀ (s : State) (w : CmdWord) (i : Instr) (rest : List Transaction),
    s.pending = .cmd w :: rest → decode w = .ok i → step s = exec i { s with pending := rest }) ∧
  (∀ (s : State) (w : CmdWord) (i : Instr),
    decode w = .ok i → step (s.withFetchWord 16 w.toNat) = exec i s) ∧
  ∀ s : State, s.pending = [] → step s = .next s

/-- R57: WRX writes `X[i]` when the unit is not faulted, and has no effect when it is. -/
def Obligations.WrxWritesOneRegister : Prop :=
  ∀ (s : State) (i : RegNum) (v : Word) (rest : List Transaction),
    s.pending = .wrx i v :: rest → v < 2 ^ s.cfg.xw →
    (s.faulted = false →
      ∃ t, step s = .next t ∧ readReg t i = v ∧ (∀ r, r ≠ i → readReg t r = readReg s r) ∧
        t = { s with pending := rest, x := t.x }) ∧
    (s.faulted = true → step s = .next { s with pending := rest })

/-- R58: RDX returns `X[i]`, in every state, and changes nothing. -/
def Obligations.RdxReturnsTheRegister : Prop :=
  ∀ (s : State) (i : RegNum) (rest : List Transaction), s.pending = .rdx i :: rest →
    step s = .next { s with pending := rest, returned := s.returned ++ [readReg s i] }

/-- R59: RDC returns the control register of the table of R24, zero-extended to XW bits; it changes no state and works in
every state. R40: in a unit whose KE, KD and FINFO have "up to XW" bits (R6 admits others, log 20), a state that meets the
invariant has no wider control register, so this result holds with no premise on the value. For a wider value R59 states no
result: that the last clause gives an XW-bit value (the width of R55) there too is the model's choice (log 5, DESIGN
CHOICE). -/
def Obligations.RdcReturnsTheControlRegister : Prop :=
  (∀ (s : State) (c : CtlNum) (v : Nat) (rest : List Transaction), s.pending = .rdc c :: rest →
    v = (match c.toNat with
      | 0 => (if s.ready then 1 else 0) + (if s.faulted then 2 else 0) + (if s.corr then 4 else 0)
      | 1 => s.cause.toNat
      | 2 => s.finfo.toNat
      | 3 => s.gen
      | 4 => s.ndeg
      | 5 => s.cfg.kn
      | 6 => s.cfg.ke
      | 7 => s.cfg.kd
      | 8 => s.cfg.nmax
      | 9 => s.cfg.xw
      | _ => 0) →
    (s.Inv → s.cfg.ControlRegistersFit → v < 2 ^ s.cfg.xw) ∧
    (v < 2 ^ s.cfg.xw → step s = .next { s with pending := rest, returned := s.returned ++ [v] })) ∧
  ∀ (s : State) (c : CtlNum) (rest : List Transaction), s.pending = .rdc c :: rest →
    ∃ v, v < 2 ^ s.cfg.xw ∧ step s = .next { s with pending := rest, returned := s.returned ++ [v] }

/-- R33: RESET is accepted in every state (R56) and leaves the reset values; the field table is unreadable then (every
reader faults with NO_FIELD), and the constants stay. -/
def Obligations.ResetLeavesTheResetState : Prop :=
  ∀ (s : State) (rest : List Transaction), s.pending = .reset :: rest →
    ∃ t, step s = .next t ∧ (∀ r, readReg t r = 0) ∧ t.ready = false ∧ t.faulted = false ∧ t.corr = false ∧
      t.cause = 0 ∧ t.finfo = 0 ∧ t.gen = 0 ∧ t.ndeg = 0 ∧ t.cfg = s.cfg ∧
      (∀ i : Instr, needsField i = true → exec i t = .next (takeFault t .noField (encode i))) ∧
      t.pending = rest ∧ t.returned = s.returned

/-! ### Faults -/

/-- R144: while FAULTED = 1 every CMD and every WRX is dropped, RDX and RDC work as always, and no transaction but RESET
changes the unit. -/
def Obligations.FaultedUnitDropsCommandsAndWrites : Prop :=
  ∀ (s : State) (rest : List Transaction), s.faulted = true →
    (∀ w, s.pending = .cmd w :: rest → step s = .next { s with pending := rest }) ∧
    (∀ i v, v < 2 ^ s.cfg.xw → s.pending = .wrx i v :: rest → step s = .next { s with pending := rest }) ∧
    (∀ i, s.pending = .rdx i :: rest →
      step s = .next { s with pending := rest, returned := s.returned ++ [readReg s i] }) ∧
    (∀ c, s.pending = .rdc c :: rest →
      step s = .next { s with pending := rest, returned := s.returned ++ [readControl s c] }) ∧
    ∀ i : Instr, exec i s = .next s

/-- R145, R140: a step that is no RESET keeps the fault record of a faulted unit, and only a CMD faults one that is
not; RESET clears the record and discards the field table and the data registers. -/
def Obligations.OnlyResetClearsAFault : Prop :=
  (∀ s t : State, step s = .next t → s.pending.head? ≠ some .reset → s.faulted = true →
    t.faulted = true ∧ t.cause = s.cause ∧ t.finfo = s.finfo) ∧
  (∀ s t : State, step s = .next t → s.faulted = false → t.faulted = true →
    ∃ w, s.pending.head? = some (.cmd w)) ∧
  ∀ s : State, s.pending.head? = some .reset → ∃ t, step s = .next t ∧ t.faulted = false ∧ t.cause = 0 ∧
    t.finfo = 0 ∧ t.ft = [] ∧ ∀ r, readReg t r = 0

/-- R143: a command that faults sets FAULTED, CAUSE and FINFO, and nothing else changes. -/
def Obligations.FaultEntryWritesTheRecordOnly : Prop :=
  (∀ (s : State) (c : Cause) (w : CmdWord),
    takeFault s c w = { s with faulted := true, cause := causeCode c, finfo := w }) ∧
  ∀ (i : Instr) (s t : State), s.faulted = false → exec i s = .next t → t.faulted = true →
    ∃ c, t = { s with faulted := true, cause := causeCode c, finfo := encode i }

/-- R141: each command raises only the causes of its rows of the table, each under its own code; codes 0 and 12 to 15
are never written. -/
def Obligations.CommandsRaiseOnlyTheirCauses : Prop :=
  ([Cause.illegalCmd, .noField, .reinit, .badGenerator, .badExponent, .badElement, .notInTable, .encOverflow,
      .badModexpOperand, .notInAlphabet, .badAlphabetValue].map (fun c => (causeCode c).toNat) =
    [1, 2, 3, 4, 5, 6, 7, 8, 9, 10, 11]) ∧
  ∀ (i : Instr) (s t : State), s.faulted = false → exec i s = .next t → t.faulted = true →
    ∃ c ∈ causesOf i, t.cause = causeCode c

/-- R80, R100: before GF.INIT every GF command but GF.INIT and every CC command raises NO_FIELD and does nothing else,
whatever its operands; and no CC command ever raises an operand fault. -/
def Obligations.FieldCommandsNeedAField : Prop :=
  (∀ (i : Instr) (s : State), needsField i = true → s.faulted = false → s.ready = false →
    exec i s = .next (takeFault s .noField (encode i))) ∧
  ∀ (i : Instr) (s t : State) (rd rs1 : RegNum),
    i ∈ [Instr.ccEnc rd rs1, .ccQuo rd rs1, .ccSyn rd rs1, .ccLoc rd rs1, .ccDec rd rs1] →
    s.faulted = false → exec i s = .next t → t.faulted = true → t.cause = 2 ∨ t.cause = 7 ∨ t.cause = 8

/-- R142: a command makes its checks in the fixed order: faulted, then decode, then state, then operands. -/
def Obligations.ChecksComeInOrder : Prop :=
  (∀ (w : CmdWord) (s : State), s.faulted = true → performCmd w s = .next s) ∧
  (∀ (w : CmdWord) (s : State) (e : IllegalWord), s.faulted = false → decode w = .error e →
    performCmd w s = .next (takeFault s .illegalCmd w)) ∧
  (∀ (i : Instr) (s : State), s.faulted = false → needsField i = true → s.ready = false →
    performCmd (encode i) s = .next (takeFault s .noField (encode i))) ∧
  (∀ (rs1 : RegNum) (s : State), s.faulted = false → s.ready = true →
    performCmd (encode (.gfInit rs1)) s = .next (takeFault s .reinit (encode (.gfInit rs1)))) ∧
  ∀ (i : Instr) (r r' rd : RegNum) (s : State), s.faulted = false → s.ready = true →
    i ∈ [Instr.gfAdd rd r r', .gfMul rd r r'] →
    ¬ValidExponent s.ndeg (signedReg s r) ∨ ¬ValidExponent s.ndeg (signedReg s r') →
    performCmd (encode i) s = .next (takeFault s .badExponent (encode i))

/-! ### Registers, frames and flags -/

/-- R13, R20: after `X[rd] <- v`, `X[rd]` is `v`, every other register and every other piece of state is as before; no
register is hardwired. -/
def Obligations.RegisterWriteChangesOneRegister : Prop :=
  ∀ (s : State) (rd : RegNum) (v : Word),
    readReg (writeReg s rd v) rd = v ∧ (∀ r, r ≠ rd → readReg (writeReg s rd v) r = readReg s r) ∧
    writeReg s rd v = { s with x := (writeReg s rd v).x }

/-- The frame of the fifteen commands with a destination register: what they leave unchanged. -/
def Obligations.RegisterCommandsFrame : Prop :=
  ∀ (i : Instr) (rd : RegNum) (s t : State), destination i = some rd → exec i s = .next t →
    (∀ r, r ≠ rd → readReg t r = readReg s r) ∧ (∀ j : Nat, t.ft[j]? = s.ft[j]?) ∧ t.gen = s.gen ∧
    t.ndeg = s.ndeg ∧ t.ready = s.ready ∧ t.cfg = s.cfg ∧ t.pending = s.pending ∧ t.returned = s.returned ∧
    ((∀ a b, i ≠ .ccDec a b) → t.corr = s.corr) ∧
    (t.faulted = s.faulted → t.cause = s.cause ∧ t.finfo = s.finfo) ∧
    (t.faulted ≠ s.faulted → t.corr = s.corr ∧ readReg t rd = readReg s rd)

/-- The frame of GF.INIT (R82, R21): no data register, no flag but READY, and on a fault not even the field. -/
def Obligations.GfInitFrame : Prop :=
  ∀ (rs1 : RegNum) (s t : State), exec (.gfInit rs1) s = .next t →
    (∀ r, readReg t r = readReg s r) ∧ t.corr = s.corr ∧ t.cfg = s.cfg ∧ t.pending = s.pending ∧
    t.returned = s.returned ∧
    (t.faulted = s.faulted → t.cause = s.cause ∧ t.finfo = s.finfo) ∧
    (t.faulted = true → t.ready = s.ready ∧ t.gen = s.gen ∧ t.ndeg = s.ndeg ∧ ∀ j : Nat, t.ft[j]? = s.ft[j]?)

/-- R23: CORR is written only by CC.DEC: 1 when the first division left a non-zero remainder, 0 when it was zero; a
command that faults leaves it; no command's result depends on it; it is 0 after reset. -/
def Obligations.CorrIsWrittenOnlyByCcDec : Prop :=
  (∀ (i : Instr) (s t : State), (∀ rd rs1, i ≠ .ccDec rd rs1) → exec i s = .next t → t.corr = s.corr) ∧
  (∀ (rd rs1 : RegNum) (s t : State), s.faulted = false → exec (.ccDec rd rs1) s = .next t →
    (t.faulted = false → (t.corr = true ↔ pmod (readReg s rs1) s.gen ≠ 0)) ∧
    (t.faulted = true → t.corr = s.corr)) ∧
  (∀ (i : Instr) (s t : State) (b : Bool), exec i s = .next t →
    ∃ b', exec i { s with corr := b } = .next { t with corr := b' }) ∧
  ∀ c : Config, (State.atReset c).corr = false

/-- R32: after a GF.INIT that completes, GEN, NDEG, FT and READY never change until reset; a second GF.INIT faults with
REINIT and changes nothing. -/
def Obligations.FieldIsImmutableUntilReset : Prop :=
  (∀ s t : State, s.ready = true → step s = .next t → s.pending.head? ≠ some .reset →
    t.ready = true ∧ t.gen = s.gen ∧ t.ndeg = s.ndeg ∧ t.ft = s.ft) ∧
  ∀ (s : State) (rs1 : RegNum), s.ready = true → s.faulted = false →
    exec (.gfInit rs1) s = .next { s with faulted := true, cause := 3, finfo := encode (.gfInit rs1) }

/-- R29, R24: no transaction changes the constants. -/
def Obligations.ConstantsNeverChange : Prop :=
  ∀ s t : State, step s = .next t → t.cfg = s.cfg

/-- R46: every command but GF.INIT is a pure function of its source registers and the immutable configuration (the spec's
own inference: "[derived: from rule R49 and 10_state.md rules R21, R32]"); the result of CC.DEC is its destination and CORR
(R105). -/
def Obligations.CommandsArePureFunctionsOfTheirSources : Prop :=
  ∀ (i : Instr) (s₁ s₂ t₁ : State), (∀ r, i ≠ .gfInit r) → s₁.faulted = false → s₂.faulted = false →
    s₁.cfg = s₂.cfg → s₁.ready = s₂.ready → s₁.gen = s₂.gen → s₁.ndeg = s₂.ndeg → s₁.ft = s₂.ft →
    (∀ r ∈ sources i, readReg s₁ r = readReg s₂ r) → exec i s₁ = .next t₁ →
    ∃ t₂, exec i s₂ = .next t₂ ∧ t₂.faulted = t₁.faulted ∧
      (t₁.faulted = true → t₂.cause = t₁.cause ∧ t₂.finfo = t₁.finfo) ∧
      (t₁.faulted = false → ∀ rd, destination i = some rd → readReg t₂ rd = readReg t₁ rd) ∧
      (t₁.faulted = false → ∀ rd rs1, i = .ccDec rd rs1 → t₂.corr = t₁.corr)

/-- R120: no ME command reads READY, GEN, NDEG or the field table, and none writes a flag (the spec's own inference:
"[derived: from 00_scope.md rule R2]"). -/
def Obligations.MeCommandsIgnoreTheField : Prop :=
  ∀ (i : Instr) (s t : State) (ready : Bool) (gen ndeg : Nat) (ft : List Nat), isMe i = true →
    exec i s = .next t →
    exec i { s with ready := ready, gen := gen, ndeg := ndeg, ft := ft } =
      .next { t with ready := ready, gen := gen, ndeg := ndeg, ft := ft } ∧ t.corr = s.corr

/-! ### Arithmetic of words and polynomials -/

/-- R12: `sx` is the signed reading of an XW-bit value, and `sext` its inverse; `sext(-1)` is the all-ones value. -/
def Obligations.SignedReadingOfAWord : Prop :=
  ∀ xw : Nat, 1 ≤ xw →
    (∀ v : Nat, v < 2 ^ xw → sx xw v = if v < 2 ^ (xw - 1) then (v : Int) else (v : Int) - 2 ^ xw) ∧
    (∀ k : Int, -2 ^ (xw - 1) ≤ k → k ≤ 2 ^ (xw - 1) - 1 → sext xw k < 2 ^ xw ∧ sx xw (sext xw k) = k) ∧
    sext xw (-1) = 2 ^ xw - 1

/-- R14: bit `k` of the product is the parity of the convolution, and the laws of it that the spec infers itself
("[derived: from the definition; the leading terms cannot cancel]"). -/
def Obligations.PolynomialProductLaws : Prop :=
  (∀ a b k : Nat, (pmul a b).testBit k =
    decide (((List.range (k + 1)).filter (fun i => b.testBit i && a.testBit (k - i))).length % 2 = 1)) ∧
  ∀ a b c : Nat, pmul a b = pmul b a ∧ pmul (pmul a b) c = pmul a (pmul b c) ∧
    pmul a (b ^^^ c) = pmul a b ^^^ pmul a c ∧ pmul a 0 = 0 ∧
    (a ≠ 0 → b ≠ 0 → deg (pmul a b) = deg a + deg b)

/-- R15: `a = pmul(q, g) ^ r` with `deg(r) < deg(g)`; when `deg(a) < deg(g)` the result is `(0, a)`
(the first two are the spec's own inference: "[derived: loop invariant a = pmul(q, g) ^ r; each step lowers deg(r)]"). -/
def Obligations.PolynomialDivision : Prop :=
  ∀ a g : Nat, g ≠ 0 →
    a = pmul (pdivmod a g).1 g ^^^ (pdivmod a g).2 ∧ deg (pdivmod a g).2 < deg g ∧
    (deg a < deg g → pdivmod a g = (0, a))

/-! ### The GF family -/

/-- R82, R83: GF.INIT faults REINIT when READY = 1, then BAD_GENERATOR unless `1 <= deg <= NMAX`, and otherwise builds
the field: GEN, NDEG, READY and the `2^m` entries of FT by the feedback shift of the pseudocode. -/
def Obligations.GfInitBuildsTheField : Prop :=
  ∀ (rs1 : RegNum) (s : State), s.Inv → s.faulted = false →
    encode (.gfInit rs1) &&& 0xFFC7#16 = 0x2000#16 ∧
    (s.ready = true → exec (.gfInit rs1) s = .next (takeFault s .reinit (encode (.gfInit rs1)))) ∧
    (s.ready = false → deg (readReg s rs1) < 1 ∨ (s.cfg.nmax : Int) < deg (readReg s rs1) →
      exec (.gfInit rs1) s = .next (takeFault s .badGenerator (encode (.gfInit rs1)))) ∧
    (s.ready = false → 1 ≤ deg (readReg s rs1) → deg (readReg s rs1) ≤ s.cfg.nmax →
      ∃ (t : State) (m : Nat), exec (.gfInit rs1) s = .next t ∧ (m : Int) = deg (readReg s rs1) ∧
        t = { s with ready := true, gen := readReg s rs1, ndeg := m, ft := t.ft } ∧
        t.ft.length = 2 ^ m ∧ t.ft[0]? = some 0 ∧ t.ft[1]? = some 1 ∧
        ∀ k, 1 ≤ k → k ≤ 2 ^ m - 2 → ∃ e, t.ft[k]? = some e ∧
          t.ft[k + 1]? = some (if e.testBit (m - 1) then (2 * e) % 2 ^ m ^^^ (readReg s rs1 % 2 ^ m)
            else (2 * e) % 2 ^ m))

/-- R84(a): the element of exponent `k` is `x^k` reduced by the generator, for every generator GF.INIT accepts
(the spec's own inference: "[derived: from rule R82: each step multiplies by x and replaces x^n by the low-order bits of
g"). -/
def Obligations.TableHoldsThePowersOfX : Prop :=
  ∀ s : State, s.Inv → s.ready = true → ∀ k : Nat, k ≤ 2 ^ s.ndeg - 2 →
    s.ft[k + 1]? = some (pmod (1 <<< k) s.gen)

/-- R84(b), its premise as the model states it (log 10): with a primitive generator the entries are pairwise distinct, every n-bit value is in the table, and one more
step of the construction after the last entry gives 1 again. -/
def Obligations.PrimitiveTableHoldsEveryElementOnce : Prop :=
  ∀ s : State, s.Inv → s.ready = true → PrimitiveGenerator s.gen →
    s.ft.Nodup ∧ (∀ v, v < 2 ^ s.ndeg → v ∈ s.ft) ∧
    ∃ e, s.ft[2 ^ s.ndeg - 1]? = some e ∧ nextElement s.gen s.ndeg e = 1

/-- R81: an exponent operand outside `[-1, 2^n - 2]` raises BAD_EXPONENT in each of the four commands that read one, and
an exponent result is written as `sext`. -/
def Obligations.ExponentsOutOfRangeFault : Prop :=
  (∀ (rd rs1 rs2 : RegNum) (s : State), s.faulted = false → s.ready = true →
    (signedReg s rs1 < -1 ∨ (2 : Int) ^ s.ndeg - 2 < signedReg s rs1) →
    ∀ i ∈ [Instr.gfElem rd rs1, .gfAdd rd rs1 rs2, .gfMul rd rs1 rs2, .gfPow rd rs1 rs2],
      exec i s = .next (takeFault s .badExponent (encode i))) ∧
  (∀ (rd rs1 rs2 : RegNum) (s : State), s.faulted = false → s.ready = true →
    (signedReg s rs2 < -1 ∨ (2 : Int) ^ s.ndeg - 2 < signedReg s rs2) →
    ∀ i ∈ [Instr.gfAdd rd rs1 rs2, .gfMul rd rs1 rs2],
      exec i s = .next (takeFault s .badExponent (encode i))) ∧
  ∀ (s : State) (rd : RegNum) (e : Int), writeExponent s rd e = writeReg s rd (sext s.cfg.xw e)

/-- R85: GF.ELEM. -/
def Obligations.GfElemReadsTheElement : Prop :=
  ∀ (rd rs1 : RegNum) (s : State), s.Inv → s.faulted = false →
    encode (.gfElem rd rs1) &&& 0xFE07#16 = 0x2200#16 ∧
    (s.ready = false → exec (.gfElem rd rs1) s = .next (takeFault s .noField (encode (.gfElem rd rs1)))) ∧
    (s.ready = true → ¬ValidExponent s.ndeg (signedReg s rs1) →
      exec (.gfElem rd rs1) s = .next (takeFault s .badExponent (encode (.gfElem rd rs1)))) ∧
    (s.ready = true → ValidExponent s.ndeg (signedReg s rs1) →
      ∃ v, s.ft[(signedReg s rs1 + 1).toNat]? = some v ∧ v < 2 ^ s.ndeg ∧
        exec (.gfElem rd rs1) s = .next (writeReg s rd v) ∧
        (signedReg s rs1 = -1 → v = 0) ∧ (signedReg s rs1 = 0 → v = 1) ∧
        (signedReg s rs1 = (2 : Int) ^ s.ndeg - 2 → s.ft.getLast? = some v))

/-- R86: GF.LOG: the lowest index whose entry is the value, minus one. -/
def Obligations.GfLogFindsTheLowestIndex : Prop :=
  ∀ (rd rs1 : RegNum) (s : State), s.Inv → s.faulted = false →
    encode (.gfLog rd rs1) &&& 0xFE07#16 = 0x2400#16 ∧
    (s.ready = false → exec (.gfLog rd rs1) s = .next (takeFault s .noField (encode (.gfLog rd rs1)))) ∧
    (s.ready = true → 2 ^ s.ndeg ≤ readReg s rs1 →
      exec (.gfLog rd rs1) s = .next (takeFault s .badElement (encode (.gfLog rd rs1)))) ∧
    (s.ready = true → readReg s rs1 < 2 ^ s.ndeg →
      (∀ j : Nat, s.ft[j]? = some (readReg s rs1) → (∀ k < j, s.ft[k]? ≠ some (readReg s rs1)) →
        exec (.gfLog rd rs1) s = .next (writeReg s rd (sext s.cfg.xw ((j : Int) - 1)))) ∧
      ((∀ j : Nat, s.ft[j]? ≠ some (readReg s rs1)) →
        exec (.gfLog rd rs1) s = .next (takeFault s .notInTable (encode (.gfLog rd rs1)))) ∧
      (readReg s rs1 = 0 → exec (.gfLog rd rs1) s = .next (writeReg s rd (2 ^ s.cfg.xw - 1))) ∧
      (readReg s rs1 = 1 → exec (.gfLog rd rs1) s = .next (writeReg s rd 0)))

/-- R87: GF.ADD: the XOR of the two elements, looked up; `add(e, e) = -1` (the spec's own inference: "[derived: from rule
R86]"). -/
def Obligations.GfAddLooksUpTheXor : Prop :=
  ∀ (rd rs1 rs2 : RegNum) (s : State), s.Inv → s.faulted = false →
    encode (.gfAdd rd rs1 rs2) &&& 0xFE00#16 = 0x2600#16 ∧
    (s.ready = false →
      exec (.gfAdd rd rs1 rs2) s = .next (takeFault s .noField (encode (.gfAdd rd rs1 rs2)))) ∧
    (s.ready = true → ¬(ValidExponent s.ndeg (signedReg s rs1) ∧ ValidExponent s.ndeg (signedReg s rs2)) →
      exec (.gfAdd rd rs1 rs2) s = .next (takeFault s .badExponent (encode (.gfAdd rd rs1 rs2)))) ∧
    (s.ready = true → ValidExponent s.ndeg (signedReg s rs1) → ValidExponent s.ndeg (signedReg s rs2) →
      ∃ u v, s.ft[(signedReg s rs1 + 1).toNat]? = some u ∧ s.ft[(signedReg s rs2 + 1).toNat]? = some v ∧
        (∀ j : Nat, s.ft[j]? = some (u ^^^ v) → (∀ k < j, s.ft[k]? ≠ some (u ^^^ v)) →
          exec (.gfAdd rd rs1 rs2) s = .next (writeReg s rd (sext s.cfg.xw ((j : Int) - 1)))) ∧
        ((∀ j : Nat, s.ft[j]? ≠ some (u ^^^ v)) →
          exec (.gfAdd rd rs1 rs2) s = .next (takeFault s .notInTable (encode (.gfAdd rd rs1 rs2)))) ∧
        (signedReg s rs1 = signedReg s rs2 →
          exec (.gfAdd rd rs1 rs2) s = .next (writeReg s rd (2 ^ s.cfg.xw - 1))))

/-- R88: GF.MUL: -1 absorbs; otherwise exponent addition modulo `2^n - 1`. -/
def Obligations.GfMulAddsExponents : Prop :=
  ∀ (rd rs1 rs2 : RegNum) (s : State), s.Inv → s.faulted = false →
    encode (.gfMul rd rs1 rs2) &&& 0xFE00#16 = 0x2800#16 ∧
    (s.ready = false →
      exec (.gfMul rd rs1 rs2) s = .next (takeFault s .noField (encode (.gfMul rd rs1 rs2)))) ∧
    (s.ready = true → ¬(ValidExponent s.ndeg (signedReg s rs1) ∧ ValidExponent s.ndeg (signedReg s rs2)) →
      exec (.gfMul rd rs1 rs2) s = .next (takeFault s .badExponent (encode (.gfMul rd rs1 rs2)))) ∧
    (s.ready = true → ValidExponent s.ndeg (signedReg s rs1) → ValidExponent s.ndeg (signedReg s rs2) →
      (signedReg s rs1 = -1 ∨ signedReg s rs2 = -1 →
        exec (.gfMul rd rs1 rs2) s = .next (writeReg s rd (2 ^ s.cfg.xw - 1))) ∧
      (signedReg s rs1 ≠ -1 → signedReg s rs2 ≠ -1 →
        ∃ r : Nat, (r : Int) = (signedReg s rs1 + signedReg s rs2) % ((2 : Int) ^ s.ndeg - 1) ∧
          r ≤ 2 ^ s.ndeg - 2 ∧ exec (.gfMul rd rs1 rs2) s = .next (writeReg s rd r)))

/-- R89: GF.POW: `p = 0` gives exponent 0; zero and one are fixed points; otherwise `p - 1` times `r = MUL(r, a)`, which
is `(a * p) mod (2^n - 1)` (the spec's own inference: "[derived: from rule R88, by induction on p]"). -/
def Obligations.GfPowRepeatsMultiplication : Prop :=
  ∀ (rd rs1 rs2 : RegNum) (s : State), s.Inv → s.faulted = false →
    encode (.gfPow rd rs1 rs2) &&& 0xFE00#16 = 0x2A00#16 ∧
    (s.ready = false →
      exec (.gfPow rd rs1 rs2) s = .next (takeFault s .noField (encode (.gfPow rd rs1 rs2)))) ∧
    (s.ready = true → ¬ValidExponent s.ndeg (signedReg s rs1) →
      exec (.gfPow rd rs1 rs2) s = .next (takeFault s .badExponent (encode (.gfPow rd rs1 rs2)))) ∧
    (s.ready = true → ValidExponent s.ndeg (signedReg s rs1) →
      (readReg s rs2 = 0 → exec (.gfPow rd rs1 rs2) s = .next (writeReg s rd 0)) ∧
      (readReg s rs2 ≠ 0 → signedReg s rs1 = -1 →
        exec (.gfPow rd rs1 rs2) s = .next (writeReg s rd (2 ^ s.cfg.xw - 1))) ∧
      (readReg s rs2 ≠ 0 → signedReg s rs1 = 0 → exec (.gfPow rd rs1 rs2) s = .next (writeReg s rd 0)) ∧
      (readReg s rs2 ≠ 0 → 1 ≤ signedReg s rs1 →
        ∃ r : Nat, (r : Int) = (fun e => mulExp s.ndeg e (signedReg s rs1))^[readReg s rs2 - 1] (signedReg s rs1) ∧
          (r : Int) = (signedReg s rs1 * readReg s rs2) % ((2 : Int) ^ s.ndeg - 1) ∧
          exec (.gfPow rd rs1 rs2) s = .next (writeReg s rd r)))

/-- R86, R84(b): with a primitive generator, and with no fault (R144), GF.LOG after GF.ELEM gives the exponent back, and GF.ELEM after GF.LOG the
element (the spec's own inference: "[derived: from rule R84(b)]"; the premise: log 10). -/
def Obligations.ElementAndLogAreInverse : Prop :=
  ∀ (rd rd' rs1 : RegNum) (s : State), s.FieldReady → PrimitiveGenerator s.gen →
    (ValidExponent s.ndeg (signedReg s rs1) →
      ∃ t u, exec (.gfElem rd rs1) s = .next t ∧ exec (.gfLog rd' rd) t = .next u ∧
        readReg u rd' = readReg s rs1 ∧ u.faulted = false) ∧
    (readReg s rs1 < 2 ^ s.ndeg →
      ∃ t u, exec (.gfLog rd rs1) s = .next t ∧ exec (.gfElem rd' rd) t = .next u ∧
        readReg u rd' = readReg s rs1 ∧ u.faulted = false)

/-- R90(a), (c): with a primitive generator GF.ADD, GF.MUL and GF.POW on valid operands never fault and give a valid
exponent, GF.POW for every count (R62, R89); -1 is the additive identity (the premise: log 10). That addition is commutative
is the spec's own inference: "[derived: XOR is commutative]" of R87, and R90(d). -/
def Obligations.FieldOperationsAreClosed : Prop :=
  ∀ (rd rs1 rs2 : RegNum) (s : State), s.FieldReady → PrimitiveGenerator s.gen →
    ValidExponent s.ndeg (signedReg s rs1) →
    (∃ t, exec (.gfPow rd rs1 rs2) s = .next t ∧ t.faulted = false ∧ ValidExponent s.ndeg (signedReg t rd)) ∧
    (ValidExponent s.ndeg (signedReg s rs2) →
      (∀ i ∈ [Instr.gfAdd rd rs1 rs2, .gfMul rd rs1 rs2],
        ∃ t, exec i s = .next t ∧ t.faulted = false ∧ ValidExponent s.ndeg (signedReg t rd)) ∧
      (signedReg s rs1 = -1 → exec (.gfAdd rd rs1 rs2) s = .next (writeReg s rd (readReg s rs2))) ∧
      exec (.gfAdd rd rs1 rs2) s = exec (.gfAdd rd rs2 rs1) s)

/-- R90(b): multiplication by exponent 1, repeated from exponent 0, visits every exponent of `0 .. 2^n - 2` in order
before it repeats. That MUL is commutative and associative is the spec's own inference, R90(d): "[derived: from rule R84(a)
and rule R88". -/
def Obligations.MultiplicationIsTheCyclicGroup : Prop :=
  ∀ n : Nat, 1 ≤ n →
    (∀ k : Nat, (fun r => mulExp n r 1)^[k] 0 = ((k % (2 ^ n - 1) : Nat) : Int)) ∧
    ∀ a b c : Int, ValidExponent n a → ValidExponent n b → ValidExponent n c →
      mulExp n a b = mulExp n b a ∧ mulExp n (mulExp n a b) c = mulExp n a (mulExp n b c)

/-- R90(d): with a primitive generator `MUL(a, b)` is the exponent of the product of the two elements as polynomials,
reduced by the generator (the spec's own inference: "[derived: from rule R84(a) and rule R88"; the premise: log 10). -/
def Obligations.MultiplicationIsThePolynomialProduct : Prop :=
  ∀ (s : State) (a b : Int), s.Inv → s.ready = true → PrimitiveGenerator s.gen →
    ValidExponent s.ndeg a → ValidExponent s.ndeg b →
    ∃ u v, s.ft[(a + 1).toNat]? = some u ∧ s.ft[(b + 1).toNat]? = some v ∧
      s.ft[(mulExp s.ndeg a b + 1).toNat]? = some (pmod (pmul u v) s.gen)

/-! ### The CC family -/

/-- R101: CC.ENC multiplies by the generator; ENC_OVERFLOW exactly when `w != 0` and `deg(w) + n >= XW`. The
length of the codeword is the spec's own inference: "[derived: from 00_scope.md rule R14]". -/
def Obligations.CcEncMultipliesByTheGenerator : Prop :=
  ∀ (rd rs1 : RegNum) (s : State), s.Inv → s.faulted = false →
    encode (.ccEnc rd rs1) &&& 0xFE07#16 = 0x4000#16 ∧
    (s.ready = false → exec (.ccEnc rd rs1) s = .next (takeFault s .noField (encode (.ccEnc rd rs1)))) ∧
    (s.ready = true → readReg s rs1 ≠ 0 → (s.cfg.xw : Int) ≤ deg (readReg s rs1) + s.ndeg →
      exec (.ccEnc rd rs1) s = .next (takeFault s .encOverflow (encode (.ccEnc rd rs1)))) ∧
    (s.ready = true → readReg s rs1 = 0 ∨ deg (readReg s rs1) + s.ndeg < s.cfg.xw →
      exec (.ccEnc rd rs1) s = .next (writeReg s rd (pmul (readReg s rs1) s.gen)) ∧
      (readReg s rs1 ≠ 0 → len (pmul (readReg s rs1) s.gen) = len (readReg s rs1) + s.ndeg) ∧
      (readReg s rs1 = 0 → pmul (readReg s rs1) s.gen = 0) ∧
      (readReg s rs1 = 1 → pmul (readReg s rs1) s.gen = s.gen))

/-- R102: CC.QUO. -/
def Obligations.CcQuoDividesByTheGenerator : Prop :=
  ∀ (rd rs1 : RegNum) (s : State), s.Inv → s.faulted = false →
    encode (.ccQuo rd rs1) &&& 0xFE07#16 = 0x4200#16 ∧
    (s.ready = false → exec (.ccQuo rd rs1) s = .next (takeFault s .noField (encode (.ccQuo rd rs1)))) ∧
    (s.ready = true →
      exec (.ccQuo rd rs1) s = .next (writeReg s rd (pquo (readReg s rs1) s.gen)) ∧
      (deg (readReg s rs1) < s.ndeg → pquo (readReg s rs1) s.gen = 0) ∧
      (deg (readReg s rs1) = s.ndeg → pquo (readReg s rs1) s.gen = 1) ∧
      (s.ndeg < len (readReg s rs1) → len (pquo (readReg s rs1) s.gen) = len (readReg s rs1) - s.ndeg))

/-- R103: CC.SYN: the remainder, an n-bit element; 0 for a codeword; `FT[p + 1]` for a codeword with bit `p` flipped
(the last two the spec's own inferences: "[derived: from 40_gf_field.md rule R84(a); pmod is linear over ^]"). -/
def Obligations.CcSynIsTheRemainder : Prop :=
  ∀ (rd rs1 : RegNum) (s : State), s.Inv → s.faulted = false →
    encode (.ccSyn rd rs1) &&& 0xFE07#16 = 0x4400#16 ∧
    (s.ready = false → exec (.ccSyn rd rs1) s = .next (takeFault s .noField (encode (.ccSyn rd rs1)))) ∧
    (s.ready = true →
      exec (.ccSyn rd rs1) s = .next (writeReg s rd (pmod (readReg s rs1) s.gen)) ∧
      pmod (readReg s rs1) s.gen < 2 ^ s.ndeg ∧
      (deg (readReg s rs1) < s.ndeg → pmod (readReg s rs1) s.gen = readReg s rs1) ∧
      (readReg s rs1 = s.gen → pmod (readReg s rs1) s.gen = 0) ∧
      (∀ w, readReg s rs1 = pmul w s.gen → pmod (readReg s rs1) s.gen = 0) ∧
      (∀ w p, p ≤ 2 ^ s.ndeg - 2 → readReg s rs1 = pmul w s.gen ^^^ (1 <<< p) →
        s.ft[p + 1]? = some (pmod (readReg s rs1) s.gen)))

/-- R104: CC.LOC: the exponent of the remainder; -1 when it is 0 (the spec's own inference: "[derived: from 40_gf_field.md
rule R86, FT[0] = 0]"). -/
def Obligations.CcLocIsTheLogOfTheRemainder : Prop :=
  ∀ (rd rs1 : RegNum) (s : State), s.Inv → s.faulted = false →
    encode (.ccLoc rd rs1) &&& 0xFE07#16 = 0x4600#16 ∧
    (s.ready = false → exec (.ccLoc rd rs1) s = .next (takeFault s .noField (encode (.ccLoc rd rs1)))) ∧
    (s.ready = true →
      (∀ j : Nat, s.ft[j]? = some (pmod (readReg s rs1) s.gen) →
        (∀ k < j, s.ft[k]? ≠ some (pmod (readReg s rs1) s.gen)) →
        exec (.ccLoc rd rs1) s = .next (writeReg s rd (sext s.cfg.xw ((j : Int) - 1)))) ∧
      ((∀ j : Nat, s.ft[j]? ≠ some (pmod (readReg s rs1) s.gen)) →
        exec (.ccLoc rd rs1) s = .next (takeFault s .notInTable (encode (.ccLoc rd rs1)))) ∧
      (pmod (readReg s rs1) s.gen = 0 →
        exec (.ccLoc rd rs1) s = .next (writeReg s rd (2 ^ s.cfg.xw - 1))))

/-- R105: CC.DEC: no error leaves the quotient and CORR = 0; otherwise the located bit of the received word is flipped,
the second division leaves remainder 0, and its quotient is written with CORR = 1 (the zero remainder is
the spec's own inference: "[derived: from 40_gf_field.md rules R84(a) and R86]"). -/
def Obligations.CcDecCorrectsTheReceivedWord : Prop :=
  ∀ (rd rs1 : RegNum) (s : State), s.Inv → s.faulted = false →
    encode (.ccDec rd rs1) &&& 0xFE07#16 = 0x4800#16 ∧
    (s.ready = false → exec (.ccDec rd rs1) s = .next (takeFault s .noField (encode (.ccDec rd rs1)))) ∧
    (s.ready = true →
      (pmod (readReg s rs1) s.gen = 0 →
        exec (.ccDec rd rs1) s =
          .next { writeReg s rd (pquo (readReg s rs1) s.gen) with corr := false }) ∧
      (∀ e : Nat, pmod (readReg s rs1) s.gen ≠ 0 → s.ft[e + 1]? = some (pmod (readReg s rs1) s.gen) →
        (∀ k < e + 1, s.ft[k]? ≠ some (pmod (readReg s rs1) s.gen)) →
        exec (.ccDec rd rs1) s =
          .next { writeReg s rd (pquo (readReg s rs1 ^^^ (1 <<< e)) s.gen) with corr := true } ∧
        pmod (readReg s rs1 ^^^ (1 <<< e)) s.gen = 0 ∧ len (readReg s rs1 ^^^ (1 <<< e)) ≤ s.cfg.xw) ∧
      ((∀ j : Nat, s.ft[j]? ≠ some (pmod (readReg s rs1) s.gen)) →
        exec (.ccDec rd rs1) s = .next (takeFault s .notInTable (encode (.ccDec rd rs1)))))

/-- R106: for every `w` with `len(w) + n <= XW`, CC.ENC then CC.DEC returns `w` with CORR = 0, whatever the generator (the
spec's own inference: "[derived: pdivmod(pmul(w, g), g) = (w, 0), from 00_scope.md rules R14, R15]"). -/
def Obligations.DecodingACodewordGivesTheWord : Prop :=
  ∀ (rs1 rc rd : RegNum) (s : State), s.FieldReady → len (readReg s rs1) + s.ndeg ≤ s.cfg.xw →
    ∃ t u, exec (.ccEnc rc rs1) s = .next t ∧ exec (.ccDec rd rc) t = .next u ∧
      readReg u rd = readReg s rs1 ∧ u.corr = false ∧ u.faulted = false

/-- R107: with a primitive generator, a codeword with any one bit `p <= 2^n - 2` flipped decodes to its word with
CORR = 1, and CC.LOC gives `p` (the spec's own inference: "[derived: the syndrome is FT[p + 1] by rule R103"; the premise:
log 10). -/
def Obligations.SingleBitErrorsAreCorrected : Prop :=
  ∀ (rd rs1 : RegNum) (s : State) (w p : Nat), s.FieldReady → PrimitiveGenerator s.gen →
    p ≤ 2 ^ s.ndeg - 2 → p < s.cfg.xw → readReg s rs1 = pmul w s.gen ^^^ (1 <<< p) →
    exec (.ccDec rd rs1) s = .next { writeReg s rd w with corr := true } ∧
    exec (.ccLoc rd rs1) s = .next (writeReg s rd p)

/-- R108: with a primitive generator no received word makes CC.DEC or CC.LOC fault, however many bits are wrong; and an
error at any position `p` of the register is located at `p mod (2^n - 1)` (the spec's own inference:
"[derived: x^(2^n - 1) = 1 modulo a primitive g]"; the premise: log 10). -/
def Obligations.NoReceivedWordFaultsTheDecoder : Prop :=
  ∀ (rd rs1 : RegNum) (s : State), s.FieldReady → PrimitiveGenerator s.gen →
    (∃ t, exec (.ccDec rd rs1) s = .next t ∧ t.faulted = false) ∧
    (∃ t, exec (.ccLoc rd rs1) s = .next t ∧ t.faulted = false) ∧
    ∀ w p : Nat, readReg s rs1 = pmul w s.gen ^^^ (1 <<< p) →
      exec (.ccLoc rd rs1) s = .next (writeReg s rd (p % (2 ^ s.ndeg - 1)))

/-! ### The ME family -/

/-- R122: SQM is modular exponentiation (the spec's own inference: "[derived: Horner's rule on the bits of exp"); its
result is below KN; 0 and 1 are fixed points (R136). -/
def Obligations.SqmIsModularExponentiation : Prop :=
  ∀ kn num exp : Nat, num < kn → 1 ≤ exp →
    sqm kn num exp = num ^ exp % kn ∧ sqm kn num exp < kn ∧ (exp = 1 → sqm kn num exp = num) ∧
    (num = 0 → sqm kn num exp = 0) ∧ (num = 1 → sqm kn num exp = 1)

/-- R123, R121: ME.EXP; its result by the spec's own inference of R122 that SQM is modular exponentiation. -/
def Obligations.MeExpIsModularExponentiation : Prop :=
  ∀ (rd rs1 rs2 : RegNum) (s : State), s.faulted = false →
    encode (.meExp rd rs1 rs2) &&& 0xFE00#16 = 0x6000#16 ∧
    (s.cfg.kn ≤ readReg s rs1 ∨ readReg s rs2 = 0 →
      exec (.meExp rd rs1 rs2) s = .next (takeFault s .badModexpOperand (encode (.meExp rd rs1 rs2)))) ∧
    (readReg s rs1 < s.cfg.kn → 1 ≤ readReg s rs2 →
      exec (.meExp rd rs1 rs2) s =
        .next (writeReg s rd (readReg s rs1 ^ readReg s rs2 % s.cfg.kn)))

/-- R124, R125, R121: ME.ENCR and ME.DECR; their results by the spec's own inference of R122. -/
def Obligations.MeEncrAndMeDecrUseTheConstants : Prop :=
  ∀ (rd rs1 : RegNum) (s : State), s.faulted = false → 1 ≤ s.cfg.ke → 1 ≤ s.cfg.kd →
    encode (.meEncr rd rs1) &&& 0xFE07#16 = 0x6200#16 ∧ encode (.meDecr rd rs1) &&& 0xFE07#16 = 0x6400#16 ∧
    (s.cfg.kn ≤ readReg s rs1 →
      exec (.meEncr rd rs1) s = .next (takeFault s .badModexpOperand (encode (.meEncr rd rs1))) ∧
      exec (.meDecr rd rs1) s = .next (takeFault s .badModexpOperand (encode (.meDecr rd rs1)))) ∧
    (readReg s rs1 < s.cfg.kn →
      exec (.meEncr rd rs1) s = .next (writeReg s rd (readReg s rs1 ^ s.cfg.ke % s.cfg.kn)) ∧
      exec (.meDecr rd rs1) s = .next (writeReg s rd (readReg s rs1 ^ s.cfg.kd % s.cfg.kn)))

/-- R127: the alphabet ROM entry by entry; the codes are pairwise distinct (R128), and the alphabet value of each code is its
index plus 2 (R129). The code numbers are ASCII's, from general knowledge (R128, G1): the model's log 14, PRESUMED. -/
def Obligations.AlphabetRom : Prop :=
  alpha.length = 67 ∧ alpha.Nodup ∧
  (∀ j < 26, alpha[j]? = some (BitVec.ofNat 8 (0x61 + j))) ∧
  (∀ j < 26, alpha[26 + j]? = some (BitVec.ofNat 8 (0x41 + j))) ∧
  (∀ j < 10, alpha[52 + j]? = some (BitVec.ofNat 8 (0x30 + j))) ∧
  alpha[62]? = some 0x20#8 ∧ alpha[63]? = some 0x2E#8 ∧ alpha[64]? = some 0x2C#8 ∧
  alpha[65]? = some 0x3F#8 ∧ alpha[66]? = some 0x21#8 ∧
  ∀ (j : Nat) (c : CharCode), alpha[j]? = some c → charToInt c.toNat = some (j + 2)

/-- R129: ME.C2I: the index of the code plus 2; NOT_IN_ALPHABET for any value that is not one of the 67 codes. -/
def Obligations.MeC2iMapsCharacterCodes : Prop :=
  ∀ (rd rs1 : RegNum) (s : State), s.faulted = false →
    encode (.meC2i rd rs1) &&& 0xFE07#16 = 0x6600#16 ∧
    (∀ (j : Nat) (c : CharCode), alpha[j]? = some c → readReg s rs1 = c.toNat →
      exec (.meC2i rd rs1) s = .next (writeReg s rd (j + 2))) ∧
    ((∀ c ∈ alpha, readReg s rs1 ≠ c.toNat) →
      exec (.meC2i rd rs1) s = .next (takeFault s .notInAlphabet (encode (.meC2i rd rs1))))

/-- R130: ME.I2C: the code at index `v - 2`; BAD_ALPHABET_VALUE outside 2..68; inverse to ME.C2I (the spec's
own inference: "[derived: the 67 codes are distinct, rule R128]"). -/
def Obligations.MeI2cMapsAlphabetValues : Prop :=
  ∀ (rd rs1 : RegNum) (s : State), s.faulted = false →
    encode (.meI2c rd rs1) &&& 0xFE07#16 = 0x6800#16 ∧
    (readReg s rs1 < 2 ∨ 68 < readReg s rs1 →
      exec (.meI2c rd rs1) s = .next (takeFault s .badAlphabetValue (encode (.meI2c rd rs1)))) ∧
    (2 ≤ readReg s rs1 → readReg s rs1 ≤ 68 →
      ∃ c : CharCode, alpha[readReg s rs1 - 2]? = some c ∧
        exec (.meI2c rd rs1) s = .next (writeReg s rd c.toNat) ∧
        ∀ rd', exec (.meC2i rd' rd) (writeReg s rd c.toNat) =
          .next (writeReg (writeReg s rd c.toNat) rd' (readReg s rs1)))

/-- R135: the cipher round trip, with no fault (R144), for every residue (for residues outside 2..68 the spec says so "from general knowledge",
G2) and, with the character map, for every character of the alphabet. -/
def Obligations.CipherRoundTrip : Prop :=
  ∀ (r1 r2 r3 r4 r5 : RegNum) (s : State), s.Inv → s.faulted = false → s.cfg.CipherParameters →
    (readReg s r1 < s.cfg.kn →
      ∃ t u, exec (.meEncr r2 r1) s = .next t ∧ exec (.meDecr r3 r2) t = .next u ∧
        readReg u r3 = readReg s r1 ∧ u.faulted = false) ∧
    (∀ c ∈ alpha, readReg s r1 = c.toNat →
      ∃ t u v w, exec (.meC2i r2 r1) s = .next t ∧ exec (.meEncr r3 r2) t = .next u ∧
        exec (.meDecr r4 r3) u = .next v ∧ exec (.meI2c r5 r4) v = .next w ∧ readReg w r5 = c.toNat ∧
        w.faulted = false)

/-! ### The whole machine -/

/-- Every step keeps the invariant: registers fit XW bits, the fault record and the field record are consistent, the table
is the one built from GEN, the constants stay well formed. -/
def Obligations.StepKeepsTheInvariant : Prop :=
  ∀ s t : State, s.Inv → step s = .next t → t.Inv

/-- The invariant holds after reset, for every well-formed configuration, the model's own (log 2) among them. -/
def Obligations.ResetMeetsTheInvariant : Prop :=
  (∀ c : Config, c.WellFormed → (State.atReset c).Inv) ∧ State.reset.Inv

/-- R165: every transaction completes: from a state that meets the invariant a step never stops. -/
def Obligations.EveryTransactionCompletes : Prop :=
  ∀ s : State, s.Inv → ∃ t, step s = .next t
end

