-- ==== Sys2Proof/Laws/Bits.lean ====
section
/-! SUPPORT. Lengths and degrees of values (R11). -/

namespace Sys2Proof.Machine

@[simp] theorem len_zero : len 0 = 0 := rfl
@[simp] theorem deg_zero : deg 0 = -1 := rfl

/-- A value has at most `k` bits exactly when it is below `2 ^ k`. -/
theorem len_le_iff {v k : Nat} : len v ≤ k ↔ v < 2 ^ k := by
  unfold len
  split
  · next h => subst h; simp
  · next h => rw [← Nat.log2_lt h]; omega

theorem lt_two_pow_len (v : Nat) : v < 2 ^ len v := len_le_iff.1 (le_refl _)

theorem len_pos_iff {v : Nat} : 0 < len v ↔ v ≠ 0 := by
  unfold len; split <;> simp_all

/-- A value whose length is `m + 1` has bit `m` as its highest. -/
theorem two_pow_le_of_len {v m : Nat} (h : len v = m + 1) : 2 ^ m ≤ v := by
  by_contra hlt
  have := len_le_iff.2 (Nat.lt_of_not_le hlt)
  omega

theorem len_mono {a b : Nat} (h : a ≤ b) : len a ≤ len b :=
  len_le_iff.2 (lt_of_le_of_lt h (lt_two_pow_len b))

end Sys2Proof.Machine
end

