-- ==== Sys2Proof/Laws/State.lean ====
section
/-! SUPPORT. One lemma per field per update of the state, so that no proof unfolds a record update; and the reads of a
register after each update. -/

namespace Sys2Proof.Machine

variable (s : State)

/-! `writeReg` -/

@[simp] theorem writeReg_cfg (i : RegNum) (v : Word) : (writeReg s i v).cfg = s.cfg := rfl
theorem writeReg_x (i : RegNum) (v : Word) : (writeReg s i v).x = s.x.set i.toNat v i.isLt := rfl
@[simp] theorem writeReg_ready (i : RegNum) (v : Word) : (writeReg s i v).ready = s.ready := rfl
@[simp] theorem writeReg_faulted (i : RegNum) (v : Word) : (writeReg s i v).faulted = s.faulted := rfl
@[simp] theorem writeReg_corr (i : RegNum) (v : Word) : (writeReg s i v).corr = s.corr := rfl
@[simp] theorem writeReg_cause (i : RegNum) (v : Word) : (writeReg s i v).cause = s.cause := rfl
@[simp] theorem writeReg_finfo (i : RegNum) (v : Word) : (writeReg s i v).finfo = s.finfo := rfl
@[simp] theorem writeReg_gen (i : RegNum) (v : Word) : (writeReg s i v).gen = s.gen := rfl
@[simp] theorem writeReg_ndeg (i : RegNum) (v : Word) : (writeReg s i v).ndeg = s.ndeg := rfl
@[simp] theorem writeReg_ft (i : RegNum) (v : Word) : (writeReg s i v).ft = s.ft := rfl
@[simp] theorem writeReg_pending (i : RegNum) (v : Word) : (writeReg s i v).pending = s.pending := rfl
@[simp] theorem writeReg_returned (i : RegNum) (v : Word) : (writeReg s i v).returned = s.returned := rfl

/-! `takeFault` -/

@[simp] theorem takeFault_cfg (c : Cause) (w : CmdWord) : (takeFault s c w).cfg = s.cfg := rfl
@[simp] theorem takeFault_x (c : Cause) (w : CmdWord) : (takeFault s c w).x = s.x := rfl
@[simp] theorem takeFault_ready (c : Cause) (w : CmdWord) : (takeFault s c w).ready = s.ready := rfl
@[simp] theorem takeFault_faulted (c : Cause) (w : CmdWord) : (takeFault s c w).faulted = true := rfl
@[simp] theorem takeFault_corr (c : Cause) (w : CmdWord) : (takeFault s c w).corr = s.corr := rfl
@[simp] theorem takeFault_cause (c : Cause) (w : CmdWord) : (takeFault s c w).cause = causeCode c := rfl
@[simp] theorem takeFault_finfo (c : Cause) (w : CmdWord) : (takeFault s c w).finfo = w := rfl
@[simp] theorem takeFault_gen (c : Cause) (w : CmdWord) : (takeFault s c w).gen = s.gen := rfl
@[simp] theorem takeFault_ndeg (c : Cause) (w : CmdWord) : (takeFault s c w).ndeg = s.ndeg := rfl
@[simp] theorem takeFault_ft (c : Cause) (w : CmdWord) : (takeFault s c w).ft = s.ft := rfl
@[simp] theorem takeFault_pending (c : Cause) (w : CmdWord) : (takeFault s c w).pending = s.pending := rfl
@[simp] theorem takeFault_returned (c : Cause) (w : CmdWord) : (takeFault s c w).returned = s.returned := rfl

/-! `resetUnit` -/

@[simp] theorem resetUnit_cfg : (resetUnit s).cfg = s.cfg := rfl
@[simp] theorem resetUnit_x : (resetUnit s).x = Vector.replicate 8 0 := rfl
@[simp] theorem resetUnit_ready : (resetUnit s).ready = false := rfl
@[simp] theorem resetUnit_faulted : (resetUnit s).faulted = false := rfl
@[simp] theorem resetUnit_corr : (resetUnit s).corr = false := rfl
@[simp] theorem resetUnit_cause : (resetUnit s).cause = 0 := rfl
@[simp] theorem resetUnit_finfo : (resetUnit s).finfo = 0 := rfl
@[simp] theorem resetUnit_gen : (resetUnit s).gen = 0 := rfl
@[simp] theorem resetUnit_ndeg : (resetUnit s).ndeg = 0 := rfl
@[simp] theorem resetUnit_ft : (resetUnit s).ft = [] := rfl
@[simp] theorem resetUnit_pending : (resetUnit s).pending = s.pending := rfl
@[simp] theorem resetUnit_returned : (resetUnit s).returned = s.returned := rfl

/-! `installField` -/

@[simp] theorem installField_cfg (g : Nat) : (installField s g).cfg = s.cfg := rfl
@[simp] theorem installField_x (g : Nat) : (installField s g).x = s.x := rfl
@[simp] theorem installField_ready (g : Nat) : (installField s g).ready = true := rfl
@[simp] theorem installField_faulted (g : Nat) : (installField s g).faulted = s.faulted := rfl
@[simp] theorem installField_corr (g : Nat) : (installField s g).corr = s.corr := rfl
@[simp] theorem installField_cause (g : Nat) : (installField s g).cause = s.cause := rfl
@[simp] theorem installField_finfo (g : Nat) : (installField s g).finfo = s.finfo := rfl
@[simp] theorem installField_gen (g : Nat) : (installField s g).gen = g := rfl
@[simp] theorem installField_ndeg (g : Nat) : (installField s g).ndeg = len g - 1 := rfl
@[simp] theorem installField_ft (g : Nat) : (installField s g).ft = buildTable g (len g - 1) := rfl
@[simp] theorem installField_pending (g : Nat) : (installField s g).pending = s.pending := rfl
@[simp] theorem installField_returned (g : Nat) : (installField s g).returned = s.returned := rfl

/-! `returnValue` -/

@[simp] theorem returnValue_cfg (v : Word) : (returnValue s v).cfg = s.cfg := rfl
@[simp] theorem returnValue_x (v : Word) : (returnValue s v).x = s.x := rfl
@[simp] theorem returnValue_ready (v : Word) : (returnValue s v).ready = s.ready := rfl
@[simp] theorem returnValue_faulted (v : Word) : (returnValue s v).faulted = s.faulted := rfl
@[simp] theorem returnValue_corr (v : Word) : (returnValue s v).corr = s.corr := rfl
@[simp] theorem returnValue_cause (v : Word) : (returnValue s v).cause = s.cause := rfl
@[simp] theorem returnValue_finfo (v : Word) : (returnValue s v).finfo = s.finfo := rfl
@[simp] theorem returnValue_gen (v : Word) : (returnValue s v).gen = s.gen := rfl
@[simp] theorem returnValue_ndeg (v : Word) : (returnValue s v).ndeg = s.ndeg := rfl
@[simp] theorem returnValue_ft (v : Word) : (returnValue s v).ft = s.ft := rfl
@[simp] theorem returnValue_pending (v : Word) : (returnValue s v).pending = s.pending := rfl
@[simp] theorem returnValue_returned (v : Word) : (returnValue s v).returned = s.returned ++ [v] := rfl

/-! `writeCorr` -/

@[simp] theorem writeCorr_cfg (b : Bool) : (writeCorr s b).cfg = s.cfg := rfl
@[simp] theorem writeCorr_x (b : Bool) : (writeCorr s b).x = s.x := rfl
@[simp] theorem writeCorr_ready (b : Bool) : (writeCorr s b).ready = s.ready := rfl
@[simp] theorem writeCorr_faulted (b : Bool) : (writeCorr s b).faulted = s.faulted := rfl
@[simp] theorem writeCorr_corr (b : Bool) : (writeCorr s b).corr = b := rfl
@[simp] theorem writeCorr_cause (b : Bool) : (writeCorr s b).cause = s.cause := rfl
@[simp] theorem writeCorr_finfo (b : Bool) : (writeCorr s b).finfo = s.finfo := rfl
@[simp] theorem writeCorr_gen (b : Bool) : (writeCorr s b).gen = s.gen := rfl
@[simp] theorem writeCorr_ndeg (b : Bool) : (writeCorr s b).ndeg = s.ndeg := rfl
@[simp] theorem writeCorr_ft (b : Bool) : (writeCorr s b).ft = s.ft := rfl
@[simp] theorem writeCorr_pending (b : Bool) : (writeCorr s b).pending = s.pending := rfl
@[simp] theorem writeCorr_returned (b : Bool) : (writeCorr s b).returned = s.returned := rfl

/-! `issueNext` -/

@[simp] theorem issueNext_cfg (t : Transaction) : (issueNext t s).cfg = s.cfg := rfl
@[simp] theorem issueNext_x (t : Transaction) : (issueNext t s).x = s.x := rfl
@[simp] theorem issueNext_ready (t : Transaction) : (issueNext t s).ready = s.ready := rfl
@[simp] theorem issueNext_faulted (t : Transaction) : (issueNext t s).faulted = s.faulted := rfl
@[simp] theorem issueNext_corr (t : Transaction) : (issueNext t s).corr = s.corr := rfl
@[simp] theorem issueNext_cause (t : Transaction) : (issueNext t s).cause = s.cause := rfl
@[simp] theorem issueNext_finfo (t : Transaction) : (issueNext t s).finfo = s.finfo := rfl
@[simp] theorem issueNext_gen (t : Transaction) : (issueNext t s).gen = s.gen := rfl
@[simp] theorem issueNext_ndeg (t : Transaction) : (issueNext t s).ndeg = s.ndeg := rfl
@[simp] theorem issueNext_ft (t : Transaction) : (issueNext t s).ft = s.ft := rfl
@[simp] theorem issueNext_pending (t : Transaction) : (issueNext t s).pending = t :: s.pending := rfl
@[simp] theorem issueNext_returned (t : Transaction) : (issueNext t s).returned = s.returned := rfl

/-! `loadProgram` -/

@[simp] theorem loadProgram_cfg (ts : List Transaction) : (loadProgram ts s).cfg = s.cfg := rfl
@[simp] theorem loadProgram_x (ts : List Transaction) : (loadProgram ts s).x = s.x := rfl
@[simp] theorem loadProgram_ready (ts : List Transaction) : (loadProgram ts s).ready = s.ready := rfl
@[simp] theorem loadProgram_faulted (ts : List Transaction) : (loadProgram ts s).faulted = s.faulted := rfl
@[simp] theorem loadProgram_corr (ts : List Transaction) : (loadProgram ts s).corr = s.corr := rfl
@[simp] theorem loadProgram_cause (ts : List Transaction) : (loadProgram ts s).cause = s.cause := rfl
@[simp] theorem loadProgram_finfo (ts : List Transaction) : (loadProgram ts s).finfo = s.finfo := rfl
@[simp] theorem loadProgram_gen (ts : List Transaction) : (loadProgram ts s).gen = s.gen := rfl
@[simp] theorem loadProgram_ndeg (ts : List Transaction) : (loadProgram ts s).ndeg = s.ndeg := rfl
@[simp] theorem loadProgram_ft (ts : List Transaction) : (loadProgram ts s).ft = s.ft := rfl
@[simp] theorem loadProgram_pending (ts : List Transaction) : (loadProgram ts s).pending = ts := rfl
@[simp] theorem loadProgram_returned (ts : List Transaction) : (loadProgram ts s).returned = s.returned := rfl

/-! Reading a register. -/

@[simp] theorem readReg_writeReg_self (i : RegNum) (v : Word) : readReg (writeReg s i v) i = v := by
  simp [readReg, writeReg]

theorem readReg_writeReg_of_ne {i r : RegNum} (v : Word) (h : r ≠ i) :
    readReg (writeReg s i v) r = readReg s r := by
  have : i.toNat ≠ r.toNat := fun e => h (BitVec.eq_of_toNat_eq e.symm)
  simp [readReg, writeReg, Vector.getElem_set_ne, this]

theorem readReg_writeReg (i r : RegNum) (v : Word) :
    readReg (writeReg s i v) r = if r = i then v else readReg s r := by
  split
  · next h => subst h; exact readReg_writeReg_self s r v
  · next h => exact readReg_writeReg_of_ne s v h

@[simp] theorem readReg_takeFault (c : Cause) (w : CmdWord) (r : RegNum) :
    readReg (takeFault s c w) r = readReg s r := rfl
@[simp] theorem readReg_installField (g : Nat) (r : RegNum) : readReg (installField s g) r = readReg s r := rfl
@[simp] theorem readReg_returnValue (v : Word) (r : RegNum) : readReg (returnValue s v) r = readReg s r := rfl
@[simp] theorem readReg_writeCorr (b : Bool) (r : RegNum) : readReg (writeCorr s b) r = readReg s r := rfl
@[simp] theorem readReg_issueNext (t : Transaction) (r : RegNum) :
    readReg (issueNext t s) r = readReg s r := rfl
@[simp] theorem readReg_loadProgram (ts : List Transaction) (r : RegNum) :
    readReg (loadProgram ts s) r = readReg s r := rfl
@[simp] theorem readReg_resetUnit (r : RegNum) : readReg (resetUnit s) r = 0 := by
  simp [readReg]

/-- Two writes to one register: the last one stays. -/
@[simp] theorem writeReg_writeReg_self (i : RegNum) (u v : Word) :
    writeReg (writeReg s i u) i v = writeReg s i v := by
  simp [writeReg]

end Sys2Proof.Machine
end

