-- ==== Sys2Proof/Laws/Ops.lean ====
section
/-! SUPPORT. What each shared operation can answer, said once: its next states, and when it stops. -/

namespace Sys2Proof.Machine

variable {s t : State} {i : Instr} {c : Cause}

/-! The operand kinds that take any value are the register's value. -/

@[simp] theorem polynomial_eq (s : State) (r : RegNum) : polynomial s r = readReg s r := rfl
@[simp] theorem count_eq (s : State) (r : RegNum) : count s r = readReg s r := rfl
@[simp] theorem characterCode_eq (s : State) (r : RegNum) : characterCode s r = readReg s r := rfl
@[simp] theorem alphabetValue_eq (s : State) (r : RegNum) : alphabetValue s r = readReg s r := rfl
@[simp] theorem writeExponent_eq (s : State) (rd : RegNum) (e : Int) :
    writeExponent s rd e = writeReg s rd (sext s.cfg.xw e) := rfl

/-- `raise` always answers the fault entry of R143. -/
theorem raise_eq_next_iff : raise i c s = .next t ↔ t = takeFault s c (encode i) := by
  simp [raise, eq_comm]

theorem unlessFaulted_of_faulted (h : s.faulted = true) (k : Result) : unlessFaulted s k = .next s := by
  simp [unlessFaulted, h]

theorem unlessFaulted_of_not_faulted (h : s.faulted = false) (k : Result) : unlessFaulted s k = k := by
  simp [unlessFaulted, h]

/-- Either the unit is faulted and nothing happens, or the guarded operation answers. -/
theorem unlessFaulted_eq_next_iff {k : Result} :
    unlessFaulted s k = .next t ↔ (s.faulted = true ∧ t = s) ∨ (s.faulted = false ∧ k = .next t) := by
  cases h : s.faulted <;> simp [unlessFaulted, h, eq_comm]

theorem check_of_pos {ok : Prop} [Decidable ok] (h : ok) (k : Result) : check ok i c s k = k := by
  simp [check, h]

theorem check_of_neg {ok : Prop} [Decidable ok] (h : ¬ok) (k : Result) :
    check ok i c s k = .next (takeFault s c (encode i)) := by
  simp [check, h, raise]

/-- A check either passes on, or raises its cause. -/
theorem check_eq_next_iff {ok : Prop} [Decidable ok] {k : Result} :
    check ok i c s k = .next t ↔ (ok ∧ k = .next t) ∨ (¬ok ∧ t = takeFault s c (encode i)) := by
  by_cases h : ok <;> simp [check, h, raise_eq_next_iff]

theorem needField_eq_next_iff {k : Result} :
    needField i s k = .next t ↔
      (s.ready = true ∧ k = .next t) ∨ (s.ready = false ∧ t = takeFault s .noField (encode i)) := by
  simp [needField, check_eq_next_iff]

theorem needExponent_eq_next_iff {r : RegNum} {k : Int → Result} :
    needExponent i s r k = .next t ↔
      (ValidExponent s.ndeg (signedReg s r) ∧ k (signedReg s r) = .next t) ∨
        (¬ValidExponent s.ndeg (signedReg s r) ∧ t = takeFault s .badExponent (encode i)) :=
  check_eq_next_iff

theorem needElement_eq_next_iff {r : RegNum} {k : Nat → Result} :
    needElement i s r k = .next t ↔
      (readReg s r < 2 ^ s.ndeg ∧ k (readReg s r) = .next t) ∨
        (¬readReg s r < 2 ^ s.ndeg ∧ t = takeFault s .badElement (encode i)) :=
  check_eq_next_iff

theorem needResidue_eq_next_iff {r : RegNum} {k : Nat → Result} :
    needResidue i s r k = .next t ↔
      (readReg s r < s.cfg.kn ∧ k (readReg s r) = .next t) ∨
        (¬readReg s r < s.cfg.kn ∧ t = takeFault s .badModexpOperand (encode i)) :=
  check_eq_next_iff

theorem needModexpExponent_eq_next_iff {r : RegNum} {k : Nat → Result} :
    needModexpExponent i s r k = .next t ↔
      (1 ≤ readReg s r ∧ k (readReg s r) = .next t) ∨
        (¬1 ≤ readReg s r ∧ t = takeFault s .badModexpOperand (encode i)) :=
  check_eq_next_iff

/-- A table read goes on with the entry; it answers no next state where no entry holds a value. -/
theorem readTable_eq_next_iff {j : Nat} {k : Nat → Result} :
    readTable s j k = .next t ↔ ∃ e, s.ft[j]? = some e ∧ k e = .next t := by
  unfold readTable
  split <;> simp_all

/-- A lookup goes on with the exponent, or raises NOT_IN_TABLE. -/
theorem needLog_eq_next_iff {v : Nat} {k : Int → Result} :
    needLog i s v k = .next t ↔
      (∃ e, logIn s.ft v = some e ∧ k e = .next t) ∨
        (logIn s.ft v = none ∧ t = takeFault s .notInTable (encode i)) := by
  unfold needLog
  split <;> simp_all [raise_eq_next_iff]

/-- What a lookup found: the lowest index of the value, minus one. -/
theorem logIn_eq_some_iff {ft : List Nat} {v : Nat} {e : Int} :
    logIn ft v = some e ↔
      ∃ j : Nat, e = (j : Int) - 1 ∧ ft[j]? = some v ∧ ∀ k < j, ft[k]? ≠ some v := by
  have key : ∀ j : Nat, ft.findIdx? (· == v) = some j ↔ ft[j]? = some v ∧ ∀ k < j, ft[k]? ≠ some v := by
    intro j
    rw [List.findIdx?_eq_some_iff_getElem]
    constructor
    · rintro ⟨hj, hv, hlt⟩
      refine ⟨by simpa [hj] using hv, fun k hk hs => ?_⟩
      have hne := hlt k hk
      rw [List.getElem?_eq_getElem (by omega)] at hs
      simp_all
    · rintro ⟨hj, hlt⟩
      obtain ⟨hj', hv⟩ := List.getElem?_eq_some_iff.1 hj
      refine ⟨hj', by simp [hv], fun k hk => ?_⟩
      have hne := hlt k hk
      rw [List.getElem?_eq_getElem (by omega)] at hne
      simpa using hne
  simp only [← key]
  unfold logIn
  cases ft.findIdx? (· == v) <;> simp [eq_comm]

/-- A lookup finds nothing exactly when no entry is the value. -/
theorem logIn_eq_none_iff {ft : List Nat} {v : Nat} : logIn ft v = none ↔ v ∉ ft := by
  have key : ft.findIdx? (· == v) = none ↔ v ∉ ft := by
    rw [List.findIdx?_eq_none_iff]
    constructor
    · intro h hv; simpa using h v hv
    · rintro h x hx; simpa using fun e : x = v => h (e ▸ hx)
  rw [← key]
  unfold logIn
  cases ft.findIdx? (· == v) <;> simp

end Sys2Proof.Machine
end

