-- ==== Sys2Proof/Laws/Exec.lean ====
section
/-! SUPPORT. What one command can do, said once. Claims over all commands follow from it by cases. -/

namespace Sys2Proof.Machine

/-- The states a command can leave when it neither is ignored nor faults. -/
inductive Completes (s : State) : Instr → State → Prop where
  /-- GF.INIT installs a field in a unit that has none. -/
  | init (rs1 : RegNum) (hr : s.ready = false) (h1 : 1 ≤ deg (readReg s rs1))
      (h2 : deg (readReg s rs1) ≤ s.cfg.nmax) : Completes s (.gfInit rs1) (installField s (readReg s rs1))
  /-- CC.DEC writes its destination and CORR. -/
  | dec (rd rs1 : RegNum) (v : Word) (b : Bool) (hr : s.ready = true)
      (hb : b = true ↔ pmod (readReg s rs1) s.gen ≠ 0) :
      Completes s (.ccDec rd rs1) (writeCorr (writeReg s rd v) b)
  /-- Any other command writes its destination. -/
  | write (i : Instr) (rd : RegNum) (v : Word) (hd : destination i = some rd) (hr : needsField i = true → s.ready = true)
      (hi : ∀ a b, i ≠ .ccDec a b) : Completes s i (writeReg s rd v)

/-- A command that answers a next state is ignored by a faulted unit, or faults with one of its causes, or
completes. -/
theorem exec_outcomes {i : Instr} {s t : State} (h : exec i s = .next t) :
    (s.faulted = true ∧ t = s) ∨
    (s.faulted = false ∧ ∃ c ∈ causesOf i, t = takeFault s c (encode i)) ∨
    (s.faulted = false ∧ Completes s i t) := by
  cases i with
  | gfInit rs1 =>
    simp only [exec, execGfInit, unlessFaulted_eq_next_iff, check_eq_next_iff] at h
    obtain h | ⟨hf, ⟨hr, ⟨⟨h1, h2⟩, ht⟩ | ⟨-, ht⟩⟩ | ⟨-, ht⟩⟩ := h
    · exact .inl h
    · cases ht; exact .inr (.inr ⟨hf, .init rs1 hr h1 h2⟩)
    · exact .inr (.inl ⟨hf, _, by simp [causesOf], ht⟩)
    · exact .inr (.inl ⟨hf, _, by simp [causesOf], ht⟩)
  | gfElem rd rs1 =>
    simp only [exec, execGfElem, unlessFaulted_eq_next_iff, needField_eq_next_iff, needExponent_eq_next_iff,
      readTable_eq_next_iff] at h
    obtain h | ⟨hf, ⟨hr, ⟨-, v, -, ht⟩ | ⟨-, ht⟩⟩ | ⟨-, ht⟩⟩ := h
    · exact .inl h
    · cases ht; exact .inr (.inr ⟨hf, .write _ rd _ rfl (fun _ => hr) (by simp)⟩)
    · exact .inr (.inl ⟨hf, _, by simp [causesOf], ht⟩)
    · exact .inr (.inl ⟨hf, _, by simp [causesOf], ht⟩)
  | gfLog rd rs1 =>
    simp only [exec, execGfLog, unlessFaulted_eq_next_iff, needField_eq_next_iff, needElement_eq_next_iff,
      needLog_eq_next_iff, writeExponent] at h
    obtain h | ⟨hf, ⟨hr, ⟨-, ⟨v, -, ht⟩ | ⟨-, ht⟩⟩ | ⟨-, ht⟩⟩ | ⟨-, ht⟩⟩ := h
    · exact .inl h
    · cases ht; exact .inr (.inr ⟨hf, .write _ rd _ rfl (fun _ => hr) (by simp)⟩)
    all_goals exact .inr (.inl ⟨hf, _, by simp [causesOf], ht⟩)
  | gfAdd rd rs1 rs2 =>
    simp only [exec, execGfAdd, unlessFaulted_eq_next_iff, needField_eq_next_iff, needExponent_eq_next_iff,
      readTable_eq_next_iff, needLog_eq_next_iff, writeExponent] at h
    obtain h | ⟨hf, ⟨hr, ⟨-, ⟨-, u, -, v, -, ⟨e, -, ht⟩ | ⟨-, ht⟩⟩ | ⟨-, ht⟩⟩ | ⟨-, ht⟩⟩ | ⟨-, ht⟩⟩ := h
    · exact .inl h
    · cases ht; exact .inr (.inr ⟨hf, .write _ rd _ rfl (fun _ => hr) (by simp)⟩)
    all_goals exact .inr (.inl ⟨hf, _, by simp [causesOf], ht⟩)
  | gfMul rd rs1 rs2 =>
    simp only [exec, execGfMul, unlessFaulted_eq_next_iff, needField_eq_next_iff, needExponent_eq_next_iff,
      writeExponent] at h
    obtain h | ⟨hf, ⟨hr, ⟨-, ⟨-, ht⟩ | ⟨-, ht⟩⟩ | ⟨-, ht⟩⟩ | ⟨-, ht⟩⟩ := h
    · exact .inl h
    · cases ht; exact .inr (.inr ⟨hf, .write _ rd _ rfl (fun _ => hr) (by simp)⟩)
    all_goals exact .inr (.inl ⟨hf, _, by simp [causesOf], ht⟩)
  | gfPow rd rs1 rs2 =>
    simp only [exec, execGfPow, unlessFaulted_eq_next_iff, needField_eq_next_iff, needExponent_eq_next_iff,
      writeExponent] at h
    obtain h | ⟨hf, ⟨hr, ⟨-, ht⟩ | ⟨-, ht⟩⟩ | ⟨-, ht⟩⟩ := h
    · exact .inl h
    · cases ht; exact .inr (.inr ⟨hf, .write _ rd _ rfl (fun _ => hr) (by simp)⟩)
    all_goals exact .inr (.inl ⟨hf, _, by simp [causesOf], ht⟩)
  | ccEnc rd rs1 =>
    simp only [exec, execCcEnc, unlessFaulted_eq_next_iff, needField_eq_next_iff, check_eq_next_iff] at h
    obtain h | ⟨hf, ⟨hr, ⟨-, ht⟩ | ⟨-, ht⟩⟩ | ⟨-, ht⟩⟩ := h
    · exact .inl h
    · cases ht; exact .inr (.inr ⟨hf, .write _ rd _ rfl (fun _ => hr) (by simp)⟩)
    all_goals exact .inr (.inl ⟨hf, _, by simp [causesOf], ht⟩)
  | ccQuo rd rs1 =>
    simp only [exec, execCcQuo, unlessFaulted_eq_next_iff, needField_eq_next_iff] at h
    obtain h | ⟨hf, ⟨hr, ht⟩ | ⟨-, ht⟩⟩ := h
    · exact .inl h
    · cases ht; exact .inr (.inr ⟨hf, .write _ rd _ rfl (fun _ => hr) (by simp)⟩)
    · exact .inr (.inl ⟨hf, _, by simp [causesOf], ht⟩)
  | ccSyn rd rs1 =>
    simp only [exec, execCcSyn, unlessFaulted_eq_next_iff, needField_eq_next_iff] at h
    obtain h | ⟨hf, ⟨hr, ht⟩ | ⟨-, ht⟩⟩ := h
    · exact .inl h
    · cases ht; exact .inr (.inr ⟨hf, .write _ rd _ rfl (fun _ => hr) (by simp)⟩)
    · exact .inr (.inl ⟨hf, _, by simp [causesOf], ht⟩)
  | ccLoc rd rs1 =>
    simp only [exec, execCcLoc, unlessFaulted_eq_next_iff, needField_eq_next_iff, needLog_eq_next_iff,
      writeExponent] at h
    obtain h | ⟨hf, ⟨hr, ⟨e, -, ht⟩ | ⟨-, ht⟩⟩ | ⟨-, ht⟩⟩ := h
    · exact .inl h
    · cases ht; exact .inr (.inr ⟨hf, .write _ rd _ rfl (fun _ => hr) (by simp)⟩)
    all_goals exact .inr (.inl ⟨hf, _, by simp [causesOf], ht⟩)
  | ccDec rd rs1 =>
    simp only [exec, execCcDec, unlessFaulted_eq_next_iff, needField_eq_next_iff] at h
    obtain h | ⟨hf, ⟨hr, ht⟩ | ⟨-, ht⟩⟩ := h
    · exact .inl h
    · by_cases hs : pmod (polynomial s rs1) s.gen = 0
      · rw [if_pos hs] at ht
        cases ht
        exact .inr (.inr ⟨hf, .dec rd rs1 _ _ hr (by simpa [polynomial] using hs)⟩)
      · rw [if_neg hs] at ht
        obtain ⟨e, -, ht⟩ | ⟨-, ht⟩ := needLog_eq_next_iff.1 ht
        · cases ht; exact .inr (.inr ⟨hf, .dec rd rs1 _ _ hr (by simpa [polynomial] using hs)⟩)
        · exact .inr (.inl ⟨hf, _, by simp [causesOf], ht⟩)
    · exact .inr (.inl ⟨hf, _, by simp [causesOf], ht⟩)
  | meExp rd rs1 rs2 =>
    simp only [exec, execMeExp, unlessFaulted_eq_next_iff, needResidue_eq_next_iff,
      needModexpExponent_eq_next_iff] at h
    obtain h | ⟨hf, ⟨-, ⟨-, ht⟩ | ⟨-, ht⟩⟩ | ⟨-, ht⟩⟩ := h
    · exact .inl h
    · cases ht; exact .inr (.inr ⟨hf, .write _ rd _ rfl (by simp [needsField]) (by simp)⟩)
    all_goals exact .inr (.inl ⟨hf, _, by simp [causesOf], ht⟩)
  | meEncr rd rs1 =>
    simp only [exec, execMeEncr, unlessFaulted_eq_next_iff, needResidue_eq_next_iff] at h
    obtain h | ⟨hf, ⟨-, ht⟩ | ⟨-, ht⟩⟩ := h
    · exact .inl h
    · cases ht; exact .inr (.inr ⟨hf, .write _ rd _ rfl (by simp [needsField]) (by simp)⟩)
    · exact .inr (.inl ⟨hf, _, by simp [causesOf], ht⟩)
  | meDecr rd rs1 =>
    simp only [exec, execMeDecr, unlessFaulted_eq_next_iff, needResidue_eq_next_iff] at h
    obtain h | ⟨hf, ⟨-, ht⟩ | ⟨-, ht⟩⟩ := h
    · exact .inl h
    · cases ht; exact .inr (.inr ⟨hf, .write _ rd _ rfl (by simp [needsField]) (by simp)⟩)
    · exact .inr (.inl ⟨hf, _, by simp [causesOf], ht⟩)
  | meC2i rd rs1 =>
    simp only [exec, execMeC2i, unlessFaulted_eq_next_iff] at h
    obtain h | ⟨hf, ht⟩ := h
    · exact .inl h
    · split at ht
      · cases ht; exact .inr (.inr ⟨hf, .write _ rd _ rfl (by simp [needsField]) (by simp)⟩)
      · exact .inr (.inl ⟨hf, _, by simp [causesOf], raise_eq_next_iff.1 ht⟩)
  | meI2c rd rs1 =>
    simp only [exec, execMeI2c, unlessFaulted_eq_next_iff] at h
    obtain h | ⟨hf, ht⟩ := h
    · exact .inl h
    · split at ht
      · cases ht; exact .inr (.inr ⟨hf, .write _ rd _ rfl (by simp [needsField]) (by simp)⟩)
      · exact .inr (.inl ⟨hf, _, by simp [causesOf], raise_eq_next_iff.1 ht⟩)

end Sys2Proof.Machine
end

