-- ==== Sys2Proof/Laws/Field.lean ====
section
/-! SUPPORT. The field table: its length, its entries, and that every operation keeps its canonical form (R28). -/

namespace Sys2Proof.Machine

/-- An element after another is an m-bit value. -/
theorem nextElement_lt (g m e : Nat) : nextElement g m e < 2 ^ m := by
  have hp : 0 < 2 ^ m := Nat.two_pow_pos m
  unfold nextElement
  split
  · exact Nat.xor_lt_two_pow (Nat.mod_lt _ hp) (Nat.mod_lt _ hp)
  · exact Nat.mod_lt _ hp

@[simp] theorem length_elementsFrom (g m k e : Nat) : (elementsFrom g m k e).length = k := by
  induction k generalizing e with
  | zero => rfl
  | succ k ih => simp [elementsFrom, ih]

/-- Entry `j` of the elements from `e` on is `j` steps after `e`. -/
theorem getElem?_elementsFrom (g m k e j : Nat) (h : j < k) :
    (elementsFrom g m k e)[j]? = some ((nextElement g m)^[j] e) := by
  induction k generalizing e j with
  | zero => omega
  | succ k ih =>
    cases j with
    | zero => rfl
    | succ j => simpa [elementsFrom] using ih (nextElement g m e) j (by omega)

/-- The table of a generator of degree `m` has `2 ^ m` entries (R82). -/
@[simp] theorem length_buildTable (g m : Nat) : (buildTable g m).length = 2 ^ m := by
  have hp : 0 < 2 ^ m := Nat.two_pow_pos m
  simp [buildTable]
  omega

@[simp] theorem getElem?_buildTable_zero (g m : Nat) : (buildTable g m)[0]? = some 0 := rfl

/-- The entry of exponent `k` is `k` steps after 1 (R82). -/
theorem getElem?_buildTable_succ (g m k : Nat) (h : k < 2 ^ m - 1) :
    (buildTable g m)[k + 1]? = some (elementAfter g m k) := by
  simpa [buildTable, elementAfter] using getElem?_elementsFrom g m (2 ^ m - 1) 1 k h

/-- Every element reached from an m-bit value is an m-bit value. -/
theorem iterate_nextElement_lt (g m e k : Nat) (h : e < 2 ^ m) : (nextElement g m)^[k] e < 2 ^ m := by
  cases k with
  | zero => exact h
  | succ k => rw [Function.iterate_succ_apply']; exact nextElement_lt g m _

/-- Every entry of the table is an m-bit element (R28). -/
theorem lt_of_mem_buildTable {g m e : Nat} (hm : 1 ≤ m) (h : e ∈ buildTable g m) : e < 2 ^ m := by
  have h1 : 1 < 2 ^ m := Nat.one_lt_two_pow (by omega)
  obtain ⟨j, hj⟩ := List.getElem?_of_mem h
  have hlen : j < 2 ^ m := by
    have := (List.getElem?_eq_some_iff.1 hj).1
    simpa using this
  cases j with
  | zero =>
    rw [getElem?_buildTable_zero] at hj
    cases hj
    omega
  | succ j =>
    rw [getElem?_buildTable_succ g m j (by omega)] at hj
    cases hj
    exact iterate_nextElement_lt g m 1 j h1

/-- The invariant gives the canonical form of the table. -/
theorem State.Inv.tableWf {s : State} (h : s.Inv) : s.TableWf := by
  obtain ⟨-, -, -, hf, -⟩ := h
  unfold State.FieldRecord at hf
  unfold State.TableWf
  split at hf
  · next hr => obtain ⟨h1, -, -, hft⟩ := hf; simp [hr, hft]; exact fun e he => lt_of_mem_buildTable h1 he
  · next hr => simp [hr, hf]

/-- The table is in canonical form after reset. -/
theorem atReset_tableWf (c : Config) : (State.atReset c).TableWf := by simp [State.TableWf, State.atReset]

/-- RESET leaves the table in canonical form. -/
theorem resetUnit_tableWf (s : State) : (resetUnit s).TableWf := by simp [State.TableWf]

/-- A GF.INIT that passes its checks leaves the table in canonical form. -/
theorem installField_tableWf (s : State) {g : Nat} (h : 1 ≤ deg g) : (installField s g).TableWf := by
  have hm : 1 ≤ len g - 1 := by unfold deg at h; omega
  simp [State.TableWf]
  exact fun e he => lt_of_mem_buildTable hm he

/-- The other updates do not touch the table. -/
theorem writeReg_tableWf {s : State} (i : RegNum) (v : Word) : (writeReg s i v).TableWf ↔ s.TableWf := Iff.rfl
theorem takeFault_tableWf {s : State} (c : Cause) (w : CmdWord) : (takeFault s c w).TableWf ↔ s.TableWf := Iff.rfl
theorem returnValue_tableWf {s : State} (v : Word) : (returnValue s v).TableWf ↔ s.TableWf := Iff.rfl
theorem writeCorr_tableWf {s : State} (b : Bool) : (writeCorr s b).TableWf ↔ s.TableWf := Iff.rfl

end Sys2Proof.Machine
end

