-- ==== Sys2Proof/Laws/PerInstr.lean ====
section
/-! SUPPORT. The per-instruction family RowMatches: the word of every command matches its row of the opcode map (R63). -/

namespace Sys2Proof.Laws.RowMatches

/-- The word of a command meets the mask and match of its row (R63). -/
def Statement (i : Instr) : Prop := encode i &&& (opcodeRow i).mask = (opcodeRow i).pattern

theorem gfInit (rs1 : RegNum) : Statement (.gfInit rs1) := by revert rs1; unfold Statement; decide
theorem gfElem (rd rs1 : RegNum) : Statement (.gfElem rd rs1) := by revert rd rs1; unfold Statement; decide
theorem gfLog (rd rs1 : RegNum) : Statement (.gfLog rd rs1) := by revert rd rs1; unfold Statement; decide
theorem gfAdd (rd rs1 rs2 : RegNum) : Statement (.gfAdd rd rs1 rs2) := by
  revert rd rs1 rs2; unfold Statement; decide
theorem gfMul (rd rs1 rs2 : RegNum) : Statement (.gfMul rd rs1 rs2) := by
  revert rd rs1 rs2; unfold Statement; decide
theorem gfPow (rd rs1 rs2 : RegNum) : Statement (.gfPow rd rs1 rs2) := by
  revert rd rs1 rs2; unfold Statement; decide
theorem ccEnc (rd rs1 : RegNum) : Statement (.ccEnc rd rs1) := by revert rd rs1; unfold Statement; decide
theorem ccQuo (rd rs1 : RegNum) : Statement (.ccQuo rd rs1) := by revert rd rs1; unfold Statement; decide
theorem ccSyn (rd rs1 : RegNum) : Statement (.ccSyn rd rs1) := by revert rd rs1; unfold Statement; decide
theorem ccLoc (rd rs1 : RegNum) : Statement (.ccLoc rd rs1) := by revert rd rs1; unfold Statement; decide
theorem ccDec (rd rs1 : RegNum) : Statement (.ccDec rd rs1) := by revert rd rs1; unfold Statement; decide
theorem meExp (rd rs1 rs2 : RegNum) : Statement (.meExp rd rs1 rs2) := by
  revert rd rs1 rs2; unfold Statement; decide
theorem meEncr (rd rs1 : RegNum) : Statement (.meEncr rd rs1) := by revert rd rs1; unfold Statement; decide
theorem meDecr (rd rs1 : RegNum) : Statement (.meDecr rd rs1) := by revert rd rs1; unfold Statement; decide
theorem meC2i (rd rs1 : RegNum) : Statement (.meC2i rd rs1) := by revert rd rs1; unfold Statement; decide
theorem meI2c (rd rs1 : RegNum) : Statement (.meI2c rd rs1) := by revert rd rs1; unfold Statement; decide

end Sys2Proof.Laws.RowMatches
end

