-- ==== Sys2Proof/Laws/Port.lean ====
section
/-! SUPPORT. What one transaction, and so one step, can do, said once (R49, R55 to R60). -/

namespace Sys2Proof.Machine

variable {s t : State}

/-- With nothing pending the unit keeps all state. -/
theorem step_of_idle (h : s.pending = []) : step s = .next s := by
  unfold step serveHost
  rw [h]

/-- A step performs the next transaction on the state without it. -/
theorem step_of_pending {tr : Transaction} {rest : List Transaction} (h : s.pending = tr :: rest) :
    step s = perform tr { s with pending := rest } := by
  unfold step serveHost
  rw [h]

/-- A WRX that answers a next state is dropped by a faulted unit, or writes its register. -/
theorem performWrx_eq_next_iff {i : RegNum} {v : Word} :
    performWrx i v s = .next t ↔
      v < 2 ^ s.cfg.xw ∧ ((s.faulted = true ∧ t = s) ∨ (s.faulted = false ∧ t = writeReg s i v)) := by
  unfold performWrx
  split
  · next h => simp only [h, unlessFaulted_eq_next_iff, Host.Outcome.next.injEq, true_and, eq_comm (a := t)]
  · next h => simp [h]

/-- A CMD executes the command its word decodes to; an illegal word is dropped by a faulted unit, or raises
ILLEGAL_CMD. -/
theorem performCmd_eq_next_iff {w : CmdWord} :
    performCmd w s = .next t ↔
      (∃ i, decode w = .ok i ∧ exec i s = .next t) ∨
      (∃ e, decode w = .error e ∧
        ((s.faulted = true ∧ t = s) ∨ (s.faulted = false ∧ t = takeFault s .illegalCmd w))) := by
  unfold performCmd
  cases decode w with
  | ok i => simp
  | error e => simp [unlessFaulted_eq_next_iff, eq_comm (a := t)]

/-- What a transaction that answers a next state did. -/
theorem perform_outcomes {tr : Transaction} (h : perform tr s = .next t) :
    (tr = .reset ∧ t = resetUnit s) ∨
    (∃ i v, tr = .wrx i v ∧ v < 2 ^ s.cfg.xw ∧
      ((s.faulted = true ∧ t = s) ∨ (s.faulted = false ∧ t = writeReg s i v))) ∨
    (∃ i, tr = .rdx i ∧ t = returnValue s (readReg s i)) ∨
    (∃ c, tr = .rdc c ∧ t = returnValue s (readControl s c)) ∨
    (∃ w i, tr = .cmd w ∧ decode w = .ok i ∧ exec i s = .next t) ∨
    (∃ w e, tr = .cmd w ∧ decode w = .error e ∧
      ((s.faulted = true ∧ t = s) ∨ (s.faulted = false ∧ t = takeFault s .illegalCmd w))) := by
  cases tr with
  | reset => cases h; exact .inl ⟨rfl, rfl⟩
  | wrx i v => exact .inr (.inl ⟨i, v, rfl, performWrx_eq_next_iff.1 h⟩)
  | rdx i => cases h; exact .inr (.inr (.inl ⟨i, rfl, rfl⟩))
  | rdc c => cases h; exact .inr (.inr (.inr (.inl ⟨c, rfl, rfl⟩)))
  | cmd w =>
    obtain ⟨i, hd, he⟩ | ⟨e, hd, he⟩ := performCmd_eq_next_iff.1 h
    · exact .inr (.inr (.inr (.inr (.inl ⟨w, i, rfl, hd, he⟩))))
    · exact .inr (.inr (.inr (.inr (.inr ⟨w, e, rfl, hd, he⟩))))

/-- What a step that answers a next state did: nothing was pending, or the next transaction was performed. -/
theorem step_outcomes (h : step s = .next t) :
    (s.pending = [] ∧ t = s) ∨
    ∃ tr rest, s.pending = tr :: rest ∧ perform tr { s with pending := rest } = .next t := by
  cases hp : s.pending with
  | nil => rw [step_of_idle hp] at h; cases h; exact .inl ⟨rfl, rfl⟩
  | cons tr rest => exact .inr ⟨tr, rest, rfl, by rw [← step_of_pending hp]; exact h⟩

/-- Where XW is at least 16, XW bits hold any register of at most 16 bits. -/
theorem toNat_lt_two_pow_xw {k : Nat} (hk : k ≤ 16) (hxw : 16 ≤ s.cfg.xw) (v : BitVec k) :
    v.toNat < 2 ^ s.cfg.xw :=
  lt_of_lt_of_le v.isLt (Nat.pow_le_pow_right (by decide) (by omega))

/-- R40: no control register of a unit that meets R40's width has more than XW bits. -/
theorem State.Inv.controlRegister_lt (h : s.Inv) (hfit : s.cfg.ControlRegistersFit) (c : CtlNum) :
    controlRegister s c < 2 ^ s.cfg.xw := by
  obtain ⟨⟨-, -, hn, hkn, -⟩, -, -, hfield, -⟩ := h
  obtain ⟨hke, hkd, h16⟩ := hfit
  have hxw : s.cfg.xw < 2 ^ s.cfg.xw := Nat.lt_two_pow_self
  have hgen : len s.gen ≤ s.cfg.xw ∧ s.ndeg ≤ s.cfg.xw := by
    unfold State.FieldRecord at hfield
    split at hfield
    · omega
    · simp [hfield]
  unfold controlRegister
  split
  · exact toNat_lt_two_pow_xw (by decide) h16 _
  · exact toNat_lt_two_pow_xw (by decide) h16 _
  · exact toNat_lt_two_pow_xw (by decide) h16 _
  · exact len_le_iff.1 hgen.1
  · omega
  · exact len_le_iff.1 hkn
  · exact len_le_iff.1 hke
  · exact len_le_iff.1 hkd
  · omega
  · exact hxw
  · omega

/-- In a unit that meets R40 RDC returns the control register's content: the free value is never returned. -/
theorem State.Inv.readControl_eq (h : s.Inv) (hfit : s.cfg.ControlRegistersFit) (c : CtlNum) :
    readControl s c = controlRegister s c :=
  if_pos (h.controlRegister_lt hfit c)

/-- A control register read fits in XW bits, whatever the register holds. -/
theorem readControl_lt (s : State) (c : CtlNum) : readControl s c < 2 ^ s.cfg.xw := by
  unfold readControl
  split
  · assumption
  · exact Nat.mod_lt _ (Nat.two_pow_pos _)

end Sys2Proof.Machine
end

