-- ==== Sys2Proof/Machine/HostMacros.lean ====
section
/-! DEFINITION. The four host-level operations as lists of transactions (R71 to R77). They are software on the host
(R5): the unit sees the transactions only. `r1` and `r2` are "any two data registers" (section 7 of 30_encoding.md). -/

namespace Sys2Proof.Machine

/-- The host's own errors, raised before any transaction (R76, R147). -/
inductive HostError where
  /-- A token that is empty or holds a character that is no digit of its base (log 11, log 19). -/
  | malformedToken
  /-- A token whose value, or a character whose code (log 18), does not fit in XW bits. -/
  | valueTooWide
  deriving DecidableEq, Repr

/-- The tokens of a message "separated by single spaces" (R71). -/
def splitTokens : List Char → List (List Char)
  | [] => [[]]
  | c :: cs =>
    if c = ' ' then [] :: splitTokens cs
    else
      match splitTokens cs with
      | [] => [[c]]
      | t :: ts => (c :: t) :: ts

/-- The value of a digit character `0` to `9`. -/
def digitValue (c : Char) : Option Nat :=
  if 0x30 ≤ c.toNat ∧ c.toNat ≤ 0x39 then some (c.toNat - 0x30) else none

/-- The digits of a token from the left, on top of the value `v` read so far. A character that is no digit makes the token
malformed (R76). DESIGN CHOICE, log 19: so does a decimal digit that is no digit of the base, such as the `2` in a codeword
token; R76 names only "a non-numeric or empty token", and N8 leaves this one open. -/
def numeralFrom (base : Nat) : List Char → Nat → Except HostError Nat
  | [], v => .ok v
  | c :: cs, v =>
    match digitValue c with
    | some d => if d < base then numeralFrom base cs (v * base + d) else .error .malformedToken
    | none => .error .malformedToken

/-- A token as an integer: a non-empty string of digits of the base (R71), whose value fits in XW bits (R76). -/
def tokenValue (xw base : Nat) (t : List Char) : Except HostError Nat :=
  match t with
  | [] => .error .malformedToken
  | c :: cs =>
    match numeralFrom base (c :: cs) 0 with
    | .ok v => if v < 2 ^ xw then .ok v else .error .valueTooWide
    | .error e => .error e

/-- The values of a message's tokens, in order, read before any transaction (R76). DESIGN CHOICE, log 21: R76 does not say
which error a message with several bad tokens reports, nor that one too-wide token rejects the others with it; here the
leftmost bad token's error is the message's, and no transaction is issued. -/
def messageValues (xw base : Nat) (msg : List Char) : Except HostError (List Nat) :=
  (splitTokens msg).mapM (tokenValue xw base)

/-- The token printed for a register value: the minimal numeral, `0` for 0 (R71, D17). -/
def printToken (base : Nat) (v : Word) : List Char := Nat.toDigits base v

/-- Tokens joined by single spaces (R72). -/
def joinTokens (ts : List (List Char)) : List Char := [' '].intercalate ts

/-- A command as a CMD transaction. -/
def issue (i : Instr) : Transaction := .cmd (encode i)

/-- The transactions of `encode` for one token's value (R72). -/
def encodeValue (r1 r2 : RegNum) (v : Nat) : List Transaction := [.wrx r1 v, issue (.ccEnc r2 r1), .rdx r2]

/-- The transactions of `decode` for one codeword's value (R73). -/
def decodeValue (r1 r2 : RegNum) (v : Nat) : List Transaction := [.wrx r1 v, issue (.ccDec r2 r1), .rdx r2]

/-- The transactions of `encrypt` for one character code (R74). -/
def encryptValue (r1 r2 : RegNum) (k : Nat) : List Transaction :=
  [.wrx r1 k, issue (.meC2i r2 r1), issue (.meEncr r2 r2), .rdx r2]

/-- The transactions of `decrypt` for one token's value (R75). -/
def decryptValue (r1 r2 : RegNum) (v : Nat) : List Transaction :=
  [.wrx r1 v, issue (.meDecr r2 r1), issue (.meI2c r2 r2), .rdx r2]

/-- `encode(message)` of R72: decimal tokens. -/
def encodeMessage (xw : Nat) (r1 r2 : RegNum) (msg : List Char) : Except HostError (List Transaction) :=
  (messageValues xw 10 msg).map (fun vs => vs.flatMap (encodeValue r1 r2))

/-- `decode(message)` of R73: binary codeword tokens. -/
def decodeMessage (xw : Nat) (r1 r2 : RegNum) (msg : List Char) : Except HostError (List Transaction) :=
  (messageValues xw 2 msg).map (fun vs => vs.flatMap (decodeValue r1 r2))

/-- The code of a character, if the register can hold it (R74, R76). DESIGN CHOICE, log 18: the spec gives codes to the
alphabet only (R128, D20, N19); for any other character the model takes the Unicode code point, which no alphabet code equals,
and a host error where that does not fit in XW bits (for the whole message, log 21). -/
def characterValue (xw : Nat) (c : Char) : Except HostError Nat :=
  if c.toNat < 2 ^ xw then .ok c.toNat else .error .valueTooWide

/-- `encrypt(message)` of R74: characters. A character outside the alphabet makes its ME.C2I fault. -/
def encryptMessage (xw : Nat) (r1 r2 : RegNum) (msg : List Char) : Except HostError (List Transaction) :=
  (msg.mapM (characterValue xw)).map (fun ks => ks.flatMap (encryptValue r1 r2))

/-- `decrypt(message)` of R75: decimal tokens. -/
def decryptMessage (xw : Nat) (r1 r2 : RegNum) (msg : List Char) : Except HostError (List Transaction) :=
  (messageValues xw 10 msg).map (fun vs => vs.flatMap (decryptValue r1 r2))

/-- What the host prints of the returned values of `encode` (R72): binary codeword tokens. -/
def printCodewords (vs : List Word) : List Char := joinTokens (vs.map (printToken 2))

/-- What the host prints of the returned values of `decode` and `encrypt` (R73, R74): decimal tokens. -/
def printDecimals (vs : List Word) : List Char := joinTokens (vs.map (printToken 10))

/-- What the host prints of the returned values of `decrypt` (R75): the characters "concatenated with no separator". -/
def printCharacters (vs : List Word) : List Char := vs.map Char.ofNat

end Sys2Proof.Machine
end

