-- ==== Sys2Proof/Machine/Listing.lean ====
section
/-! DEFINITION. The listing syntax of R68: one transaction a line. -/

namespace Sys2Proof.Machine

/-- A register as the listing writes it: `x0` to `x7`. -/
def regListing (r : RegNum) : String := "x" ++ toString r.toNat

/-- One register operand after a mnemonic. -/
def listing1 (m : String) (a : RegNum) : String := m ++ " " ++ regListing a

/-- Two register operands. -/
def listing2 (m : String) (a b : RegNum) : String := listing1 m a ++ ", " ++ regListing b

/-- Three register operands. -/
def listing3 (m : String) (a b c : RegNum) : String := listing2 m a b ++ ", " ++ regListing c

/-- A command "with the registers it uses and no others" (R68). -/
def commandListing (i : Instr) : String :=
  match i with
  | .gfInit rs1 => listing1 (opcodeRow i).mnemonic rs1
  | .gfElem rd rs1 => listing2 (opcodeRow i).mnemonic rd rs1
  | .gfLog rd rs1 => listing2 (opcodeRow i).mnemonic rd rs1
  | .gfAdd rd rs1 rs2 => listing3 (opcodeRow i).mnemonic rd rs1 rs2
  | .gfMul rd rs1 rs2 => listing3 (opcodeRow i).mnemonic rd rs1 rs2
  | .gfPow rd rs1 rs2 => listing3 (opcodeRow i).mnemonic rd rs1 rs2
  | .ccEnc rd rs1 => listing2 (opcodeRow i).mnemonic rd rs1
  | .ccQuo rd rs1 => listing2 (opcodeRow i).mnemonic rd rs1
  | .ccSyn rd rs1 => listing2 (opcodeRow i).mnemonic rd rs1
  | .ccLoc rd rs1 => listing2 (opcodeRow i).mnemonic rd rs1
  | .ccDec rd rs1 => listing2 (opcodeRow i).mnemonic rd rs1
  | .meExp rd rs1 rs2 => listing3 (opcodeRow i).mnemonic rd rs1 rs2
  | .meEncr rd rs1 => listing2 (opcodeRow i).mnemonic rd rs1
  | .meDecr rd rs1 => listing2 (opcodeRow i).mnemonic rd rs1
  | .meC2i rd rs1 => listing2 (opcodeRow i).mnemonic rd rs1
  | .meI2c rd rs1 => listing2 (opcodeRow i).mnemonic rd rs1

/-- A transaction as a line; a CMD whose word is a command is written as that command, any other as `CMD` and the
word's number (95_test_vectors.md writes illegal words so). -/
def transactionListing : Transaction → String
  | .reset => "RESET"
  | .wrx i v => "WRX " ++ regListing i ++ ", " ++ toString v
  | .rdx i => "RDX " ++ regListing i
  | .rdc c => "RDC " ++ toString c.toNat
  | .cmd w =>
    match decode w with
    | .ok i => commandListing i
    | .error _ => "CMD " ++ toString w.toNat

end Sys2Proof.Machine
end

