-- ==== Sys2Proof/Tests/Slice0.lean ====
section
/-! SUPPORT. Tests from the spec's worked examples and tables, and a witness for the hypotheses of each statement. -/

namespace Sys2Proof.Tests

open Sys2Proof.Machine

/-! ### States for one-step tests -/

/-- The reset state with the given registers. -/
def unit (x : Vector Word 8) : State := { State.reset with x := x }

/-- A unit whose field is built from generator `g`. -/
def fieldUnit (g : Nat) (x : Vector Word 8) : State := installField (unit x) g

/-- The XW-bit value of -1 in the reference configuration. -/
def allOnes : Word := 2 ^ 128 - 1

/-- A field of degree 3 (g = 1011), and in the registers values at the ends of the operand ranges. -/
def small : State := fieldUnit 0xB #v[0, 1, 6, 7, allOnes, allOnes - 1, 11, 5]

/-- The same registers with no field. -/
def fresh : State := unit #v[0, 1, 6, 7, allOnes, allOnes - 1, 0x83, 0x11D]

/-- A field of degree 4 whose generator 11111 is not primitive (95_test_vectors.md, 2.1). -/
def odd : State := fieldUnit 0x1F #v[0, 1, 3, 15, 9, 0, 0, 0]

/-- Operands of the ME family at the ends of their ranges. -/
def cipher : State := unit #v[0, 1, 3232, 3233, 28, 0x41, 68, 69]

/-- A faulted unit. -/
def dead : State := takeFault small .noField 0x2250

/-- A unit whose host issues the given transactions next. -/
def withHost (ts : List Transaction) (s : State) : State := { s with pending := ts }

/-- Register `r` after an outcome, if it is a next state without a fault. -/
def regAfter (r : RegNum) : Result → Option Word
  | .next t => if t.faulted then none else some (readReg t r)
  | .fault _ => none
  | .refused _ => none

/-- CAUSE and FINFO after an outcome, if it is a next state. -/
def faultAfter : Result → Option (Nat × Nat)
  | .next t => some (t.cause.toNat, t.finfo.toNat)
  | .fault _ => none
  | .refused _ => none

/-- STATUS after an outcome, if it is a next state. -/
def statusAfter : Result → Option Nat
  | .next t => some (statusWord t).toNat
  | .fault _ => none
  | .refused _ => none

/-- The values returned after an outcome, if it is a next state. -/
def returnedAfter : Result → Option (List Word)
  | .next t => some t.returned
  | .fault _ => none
  | .refused _ => none

/-! ### Well-formedness: one ill-formed term for each check (R6, R7, R55) -/

theorem test_reference_config : Config.reference.WellFormed := by decide
theorem test_config_nmax_zero : ¬({ Config.reference with nmax := 0 } : Config).WellFormed := by decide
theorem test_config_codeword_too_wide : ¬({ Config.reference with xw := 126 } : Config).WellFormed := by decide
theorem test_config_modulus_too_wide : ¬({ Config.reference with kn := 2 ^ 128 } : Config).WellFormed := by decide
theorem test_config_character_too_wide :
    ¬({ Config.reference with nmax := 2, xw := 7, kn := 69 } : Config).WellFormed := by decide
theorem test_config_generator_too_wide :
    ¬({ Config.reference with nmax := 8, xw := 8, kn := 69 } : Config).WellFormed := by decide
theorem test_config_modulus_too_small : ¬({ Config.reference with kn := 68 } : Config).WellFormed := by decide
theorem test_config_public_exponent_zero : ¬({ Config.reference with ke := 0 } : Config).WellFormed := by decide
theorem test_config_private_exponent_zero : ¬({ Config.reference with kd := 0 } : Config).WellFormed := by decide
/-- The narrowest unit of R6, with a KD of more than XW bits, which R6 does not bound. -/
theorem test_config_narrowest :
    ({ Config.reference with nmax := 3, xw := 8, kn := 69, kd := 2 ^ 8 } : Config).WellFormed := by decide
/-- R40: "up to XW" bits for KE, KD and the 16-bit FINFO. -/
theorem test_control_public_exponent_too_wide :
    ¬({ Config.reference with ke := 2 ^ 128 } : Config).ControlRegistersFit := by decide
theorem test_control_private_exponent_too_wide :
    ¬({ Config.reference with kd := 2 ^ 128 } : Config).ControlRegistersFit := by decide
theorem test_control_command_word_too_wide :
    ¬({ Config.reference with nmax := 2, xw := 15 } : Config).ControlRegistersFit := by decide
theorem test_wrx_fits : (Transaction.wrx 7 allOnes).wellFormed Config.reference = true := by decide
theorem test_wrx_too_wide : (Transaction.wrx 0 (2 ^ 128)).wellFormed Config.reference = false := by decide

/-! ### Decoding: one word of each command, its bits written out from R61 and R63 (fam, fn, rd, rs1, rs2) -/

theorem test_decode_gfInit : decode 0b0010000000101000#16 = .ok (.gfInit 5) := by decide
theorem test_decode_gfElem : decode 0b0010001110100000#16 = .ok (.gfElem 6 4) := by decide
theorem test_decode_gfLog : decode 0b0010010111110000#16 = .ok (.gfLog 7 6) := by decide
theorem test_decode_gfAdd : decode 0b0010011100010011#16 = .ok (.gfAdd 4 2 3) := by decide
theorem test_decode_gfMul : decode 0b0010100101010011#16 = .ok (.gfMul 5 2 3) := by decide
theorem test_decode_gfPow : decode 0b0010101011010111#16 = .ok (.gfPow 3 2 7) := by decide
theorem test_decode_ccEnc : decode 0b0100000011010000#16 = .ok (.ccEnc 3 2) := by decide
theorem test_decode_ccQuo : decode 0b0100001101100000#16 = .ok (.ccQuo 5 4) := by decide
theorem test_decode_ccSyn : decode 0b0100010101100000#16 = .ok (.ccSyn 5 4) := by decide
theorem test_decode_ccLoc : decode 0b0100011110100000#16 = .ok (.ccLoc 6 4) := by decide
theorem test_decode_ccDec : decode 0b0100100111100000#16 = .ok (.ccDec 7 4) := by decide
theorem test_decode_meExp : decode 0b0110000011001010#16 = .ok (.meExp 3 1 2) := by decide
theorem test_decode_meEncr : decode 0b0110001011010000#16 = .ok (.meEncr 3 2) := by decide
theorem test_decode_meDecr : decode 0b0110010100011000#16 = .ok (.meDecr 4 3) := by decide
theorem test_decode_meC2i : decode 0b0110011010001000#16 = .ok (.meC2i 2 1) := by decide
theorem test_decode_meI2c : decode 0b0110100101100000#16 = .ok (.meI2c 5 4) := by decide

/-- The illegal words of 95_test_vectors.md, 2.4. -/
theorem test_decode_illegal :
    decode 0x0000 = .error .family ∧ decode 0x0200 = .error .family ∧ decode 0x8000 = .error .family ∧
    decode 0xFFFF = .error .family ∧ decode 0x2C00 = .error .function ∧ decode 0x3E00 = .error .function ∧
    decode 0x4A00 = .error .function ∧ decode 0x6A00 = .error .function ∧ decode 0x2048 = .error .mustBeZero ∧
    decode 0x2009 = .error .mustBeZero ∧ decode 0x2201 = .error .mustBeZero ∧
    decode 0x4007 = .error .mustBeZero ∧ decode 0x6801 = .error .mustBeZero := by decide

theorem test_decodeTableWord : decodeTableWord 16 0x27FF = some (.gfAdd 7 7 7) := by decide

/-! ### One step of each command (95_test_vectors.md, part 2) -/

/-- GF.INIT x1 with 0x83 (2.1): the entries of exponents 6, 7 and 126. -/
theorem test_gfInit_table : [7, 8, 127].map (fun j : Nat => (buildTable 0x83 7)[j]?) = [some 0x40, some 0x03, some 0x41] := by
  decide +kernel
/-- V-F4c: degree 8 is above NMAX. -/
theorem test_gfInit_degree_too_high : faultAfter (exec (.gfInit 7) fresh) = some (4, 0x2038) := by decide
/-- GF(2^3), g = 1011: exponent 6 is 101. -/
theorem test_gfElem_last : regAfter 0 (exec (.gfElem 0 2) small) = some 5 := by decide
/-- V-E1: exponent -1 is the zero element. -/
theorem test_gfElem_zero : regAfter 2 (exec (.gfElem 2 4) small) = some 0 := by decide
/-- 2.1: with 11111, LOG of 1111 is 4, the lowest index minus one. -/
theorem test_gfLog_lowest : regAfter 0 (exec (.gfLog 0 3) odd) = some 4 := by decide
/-- V-F7a: 0011 is not in the table of 11111. -/
theorem test_gfLog_missing : faultAfter (exec (.gfLog 3 2) odd) = some (7, 0x24D0) := by decide
/-- The GF(2^3) table of 2.1: add(1, 6) = 5; the destination is a source. -/
theorem test_gfAdd : regAfter 1 (exec (.gfAdd 1 1 2) small) = some 5 := by decide
/-- V-A2: e + e is zero, written as all ones. -/
theorem test_gfAdd_self : regAfter 0 (exec (.gfAdd 0 2 2) small) = some allOnes := by decide
/-- MUL(2^n - 2, 1) = 0. -/
theorem test_gfMul_wraps : regAfter 2 (exec (.gfMul 2 2 1) small) = some 0 := by decide
/-- V-M3: a zero operand. -/
theorem test_gfMul_zero : regAfter 0 (exec (.gfMul 0 4 1) small) = some allOnes := by decide
/-- V-P1: zero to the power zero is one. -/
theorem test_gfPow_zero_zero : regAfter 7 (exec (.gfPow 7 4 0) small) = some 0 := by decide
/-- The largest count: 6 * (2^128 - 1) mod 7 = 6 * 3 mod 7 = 4 (2^128 mod 7 = 2^(128 mod 3) = 4). -/
theorem test_gfPow_large : regAfter 7 (exec (.gfPow 7 2 4) small) = some 4 := by decide
/-- With g = 1011 the codeword of 101 is 100111 (2.2). -/
theorem test_ccEnc : regAfter 0 (exec (.ccEnc 0 7) small) = some 0b100111 := by decide
/-- The all-ones word of XW bits overflows. -/
theorem test_ccEnc_overflow : faultAfter (exec (.ccEnc 0 4) small) = some (8, 0x4020) := by decide
/-- The divider on 654 (2.2). -/
theorem test_ccQuo : pquo 654 0x83 = 5 ∧ pquo 0x7F 0x83 = 0 ∧ pquo 0x82 0x83 = 1 := by decide
theorem test_ccSyn : pmod 654 0x83 = 1 ∧ pmod 0x7F 0x83 = 0x7F ∧ pmod 143 0x83 = 12 := by decide
/-- A codeword (11 = g) has no error: -1. -/
theorem test_ccLoc_none : regAfter 0 (exec (.ccLoc 0 6) small) = some allOnes := by decide
/-- The word 7 = 111 is a syndrome, the element of exponent 5 (2.1). -/
theorem test_ccLoc : regAfter 0 (exec (.ccLoc 0 3) small) = some 5 := by decide
/-- The generator itself is the codeword of 1; CORR stays 0. -/
theorem test_ccDec_clean : statusAfter (exec (.ccDec 0 6) small) = some 1 ∧ regAfter 0 (exec (.ccDec 0 6) small) = some 1 := by
  decide
/-- The word 111: bit 5 is flipped, 100111 decodes to 101, and CORR is set. -/
theorem test_ccDec_corrects : statusAfter (exec (.ccDec 0 3) small) = some 5 ∧ regAfter 0 (exec (.ccDec 0 3) small) = some 5 := by
  decide
/-- V-R7: KN - 1 squared is 1. -/
theorem test_meExp : regAfter 0 (exec (.meExp 0 2 2) { cipher with x := #v[0, 0, 3232, 0, 0, 0, 0, 0] }) = some 1 ∧
    sqm 3233 3232 2 = 1 := by decide
/-- V-R9 and V-R10. -/
theorem test_meExp_operands : faultAfter (exec (.meExp 0 3 1) cipher) = some (9, 0x6019) ∧
    faultAfter (exec (.meExp 0 1 0) cipher) = some (9, 0x6008) := by decide
/-- S3: 28 encrypts to 1075. -/
theorem test_meEncr : regAfter 4 (exec (.meEncr 4 4) cipher) = some 1075 := by decide
/-- V-F9a: KN itself is no residue. -/
theorem test_meEncr_operand : faultAfter (exec (.meEncr 2 3) cipher) = some (9, 0x6298) := by decide
/-- S3: 1075 decrypts to 28. -/
theorem test_meDecr : sqm 3233 1075 2753 = 28 := by decide
theorem test_meDecr_fixed_point : regAfter 0 (exec (.meDecr 0 1) cipher) = some 1 := by decide
/-- The letter A is 28. -/
theorem test_meC2i : regAfter 0 (exec (.meC2i 0 5) cipher) = some 28 := by decide
theorem test_meC2i_outside : faultAfter (exec (.meC2i 0 2) cipher) = some (10, 0x6610) := by decide
/-- 68 is the exclamation mark. -/
theorem test_meI2c : regAfter 0 (exec (.meI2c 0 6) cipher) = some 0x21 := by decide
theorem test_meI2c_outside : faultAfter (exec (.meI2c 0 7) cipher) = some (11, 0x6838) ∧
    faultAfter (exec (.meI2c 0 1) cipher) = some (11, 0x6808) := by decide

/-! ### The port -/

theorem test_cmd_illegal : faultAfter (step (withHost [.cmd 0x2201] fresh)) = some (1, 0x2201) := by decide
theorem test_wrx : regAfter 3 (step (withHost [.wrx 3 77] small)) = some 77 := by decide
theorem test_rdc_status : returnedAfter (step (withHost [.rdc 0] dead)) = some [3] := by decide
theorem test_rdc_unassigned : returnedAfter (step (withHost [.rdc 10] small)) = some [0] := by decide
theorem test_reset_of_a_faulted_unit : statusAfter (step (withHost [.reset] dead)) = some 0 := by decide

/-! ### The host's macros and the listing (R68, R71 to R75) -/

theorem test_encode_macro :
    encodeMessage 128 1 2 ['5', ' ', '0'] =
      .ok [.wrx 1 5, .cmd 0x4088, .rdx 2, .wrx 1 0, .cmd 0x4088, .rdx 2] := by decide
theorem test_decode_macro_malformed : decodeMessage 128 1 2 ['1', '2'] = .error .malformedToken := by decide
theorem test_encrypt_macro :
    encryptMessage 128 1 2 ['A'] = .ok [.wrx 1 0x41, .cmd 0x6688, .cmd 0x6290, .rdx 2] := by decide
theorem test_decrypt_macro_empty_token : decryptMessage 128 1 2 ['1', ' '] = .error .malformedToken := by decide
theorem test_print_tokens : printCodewords [655, 0] = "1010001111 0".toList := by decide
theorem test_listing :
    transactionListing (.cmd 0x2713) = "GF.ADD x4, x2, x3" ∧ transactionListing (.cmd 0x2008) = "GF.INIT x1" := by
  decide

/-! ### Witnesses: concrete states and operands that meet each statement's hypotheses, clause by clause -/

/-- The three states most witnesses use: no field yet, a primitive generator, a generator that is not primitive. -/
theorem fresh_meets : fresh.Inv ∧ fresh.faulted = false ∧ fresh.ready = false := by decide
theorem small_meets : small.Inv ∧ small.faulted = false ∧ small.ready = true := by decide
theorem odd_meets : odd.Inv ∧ odd.faulted = false ∧ odd.ready = true := by decide

theorem witness_EncodeInvertsDecode : decode 0x2AD3 = .ok (.gfPow 3 2 3) := by decide

theorem witness_MatchAndMaskSelectTheCommand :
    opcodeRow (.gfInit 0) ∈ opcodeTable ∧ (0x2038#16 &&& 0xFFC7 = 0x2000) ∧ (0x2048#16 &&& 0xFFC7 ≠ 0x2000) := by decide

theorem witness_OpcodeRowsAreDisjoint :
    opcodeRow (.gfInit 0) ∈ opcodeTable ∧ opcodeRow (.meI2c 0 0) ∈ opcodeTable ∧
    opcodeRow (.gfInit 0) ≠ opcodeRow (.meI2c 0 0) := by decide

theorem witness_IllegalWordsRaiseIllegalCmd :
    (∀ r ∈ opcodeTable, 0x2048#16 &&& r.mask ≠ r.pattern) ∧
    (withHost [.cmd 0x2048] fresh).pending = .cmd 0x2048 :: [] ∧ (withHost [.cmd 0x2048] fresh).faulted = false := by
  decide

theorem witness_StepRunsTheDecodedCommand :
    (withHost [.cmd 0x2713, .rdx 4] small).pending = .cmd 0x2713 :: [.rdx 4] ∧
    decode 0x2713 = .ok (.gfAdd 4 2 3) ∧ small.pending = [] := by decide

theorem witness_WrxWritesOneRegister :
    (withHost [.wrx 7 allOnes] small).pending = .wrx 7 allOnes :: [] ∧ allOnes < 2 ^ small.cfg.xw ∧
    (withHost [.wrx 7 allOnes] small).faulted = false ∧ (withHost [.wrx 7 allOnes] dead).faulted = true := by decide

theorem witness_RdxReturnsTheRegister : (withHost [.rdx 7] dead).pending = .rdx 7 :: [] := by decide

/-- A faulted unit of the narrowest configuration that meets R40: FINFO and KD fill all of XW = 16 bits. -/
def narrow : State :=
  takeFault (State.atReset { Config.reference with nmax := 4, xw := 16, kd := 2 ^ 16 - 1 }) .illegalCmd 0xFFFF

/-- Each assigned register's value fits, also where it fills XW bits, and 15 reads as 0; and a unit that R6
admits and R40 does not, where KE has more than XW bits. -/
theorem witness_RdcReturnsTheControlRegister :
    (withHost [.rdc 15] dead).pending = .rdc 15 :: [] ∧ (dead.Inv ∧ dead.cfg.ControlRegistersFit) ∧
    (∀ c : CtlNum, controlRegister dead c < 2 ^ dead.cfg.xw) ∧
    (narrow.Inv ∧ narrow.cfg.ControlRegistersFit) ∧ controlRegister narrow 2 = 2 ^ narrow.cfg.xw - 1 ∧ controlRegister narrow 7 = 2 ^ narrow.cfg.xw - 1 ∧
    ¬controlRegister (State.atReset { Config.reference with ke := 2 ^ 128 }) 6 < 2 ^ 128 :=
  ⟨by decide, by decide, by decide, by decide, by decide, by decide, by decide⟩

theorem witness_ResetLeavesTheResetState : (withHost [.reset, .rdx 0] dead).pending = .reset :: [.rdx 0] := by decide

theorem witness_FaultedUnitDropsCommandsAndWrites :
    dead.faulted = true ∧ (withHost [.cmd 0x2008] dead).pending = .cmd 0x2008 :: [] ∧
    (withHost [.wrx 1 allOnes] dead).pending = .wrx 1 allOnes :: [] ∧ allOnes < 2 ^ dead.cfg.xw ∧
    (withHost [.rdx 1] dead).pending = .rdx 1 :: [] ∧ (withHost [.rdc 2] dead).pending = .rdc 2 :: [] := by decide

theorem witness_OnlyResetClearsAFault :
    (∃ t, step (withHost [.wrx 1 5] dead) = .next t) ∧ (withHost [.wrx 1 5] dead).pending.head? ≠ some .reset ∧
    dead.faulted = true ∧
    (∃ t, step (withHost [.cmd 0] fresh) = .next t ∧ t.faulted = true) ∧ fresh.faulted = false ∧
    (withHost [.reset] dead).pending.head? = some .reset :=
  ⟨⟨_, rfl⟩, by decide, by decide, ⟨_, rfl, by decide⟩, by decide, by decide⟩

theorem witness_FaultEntryWritesTheRecordOnly :
    small.faulted = false ∧ ∃ t, exec (.gfElem 0 3) small = .next t ∧ t.faulted = true :=
  ⟨by decide, _, rfl, by decide⟩

theorem witness_CommandsRaiseOnlyTheirCauses :
    cipher.faulted = false ∧ ∃ t, exec (.meI2c 0 7) cipher = .next t ∧ t.faulted = true :=
  ⟨by decide, _, rfl, by decide⟩

theorem witness_FieldCommandsNeedAField :
    needsField (.ccDec 0 1) = true ∧ fresh.faulted = false ∧ fresh.ready = false ∧
    Instr.ccEnc 0 4 ∈ [Instr.ccEnc 0 4, .ccQuo 0 4, .ccSyn 0 4, .ccLoc 0 4, .ccDec 0 4] ∧
    ∃ t, exec (.ccEnc 0 4) small = .next t ∧ t.faulted = true :=
  ⟨by decide, by decide, by decide, by decide, _, rfl, by decide⟩

theorem witness_ChecksComeInOrder :
    dead.faulted = true ∧ decode 0x2201 = .error .mustBeZero ∧ fresh.faulted = false ∧
    needsField (.gfElem 3 3) = true ∧ fresh.ready = false ∧ small.ready = true ∧ small.faulted = false ∧
    ¬ValidExponent small.ndeg (signedReg small 3) ∧ ¬ValidExponent small.ndeg (signedReg small 5) := by decide

theorem witness_RegisterCommandsFrame :
    destination (.gfMul 2 2 1) = some 2 ∧ (∃ t, exec (.gfMul 2 2 1) small = .next t ∧ t.faulted = small.faulted) ∧
    destination (.gfMul 2 3 1) = some 2 ∧ ∃ t, exec (.gfMul 2 3 1) small = .next t ∧ t.faulted ≠ small.faulted :=
  ⟨by decide, ⟨_, rfl, by decide⟩, by decide, _, rfl, by decide⟩

theorem witness_GfInitFrame :
    (∃ t, exec (.gfInit 3) fresh = .next t ∧ t.faulted = fresh.faulted) ∧
    ∃ t, exec (.gfInit 0) fresh = .next t ∧ t.faulted = true :=
  ⟨⟨_, rfl, by decide⟩, _, rfl, by decide⟩

theorem witness_CorrIsWrittenOnlyByCcDec :
    (∃ t, exec (.ccSyn 0 3) small = .next t) ∧ small.faulted = false ∧
    (∃ t, exec (.ccDec 0 3) small = .next t ∧ t.faulted = false) ∧ odd.faulted = false ∧
    ∃ t, exec (.ccDec 0 2) odd = .next t ∧ t.faulted = true :=
  ⟨⟨_, rfl⟩, by decide, ⟨_, rfl, by decide⟩, by decide, _, rfl, by decide⟩

theorem witness_FieldIsImmutableUntilReset :
    small.ready = true ∧ (∃ t, step (withHost [.cmd 0x2008] small) = .next t) ∧
    (withHost [.cmd 0x2008] small).pending.head? ≠ some .reset ∧ small.faulted = false :=
  ⟨by decide, ⟨_, rfl⟩, by decide, by decide⟩

theorem witness_ConstantsNeverChange : ∃ t, step (withHost [.reset] small) = .next t := ⟨_, rfl⟩

/-- Two states that differ in a register GF.MUL does not read, and in CORR. -/
theorem witness_CommandsArePureFunctionsOfTheirSources :
    (∀ r, Instr.gfMul 0 1 2 ≠ .gfInit r) ∧ small.faulted = false ∧
    (∀ r ∈ sources (.gfMul 0 1 2), readReg small r = readReg (writeCorr (writeReg small 5 9) true) r) ∧
    (∃ t, exec (.gfMul 0 1 2) small = .next t) ∧
    (∀ r ∈ sources (.ccDec 0 3), readReg small r = readReg (writeCorr (writeReg small 5 9) true) r) ∧
    ∃ t, exec (.ccDec 0 3) small = .next t ∧ t.faulted = false :=
  ⟨by decide, by decide, by decide, ⟨_, rfl⟩, by decide, _, rfl, by decide⟩

theorem witness_MeCommandsIgnoreTheField :
    isMe (.meC2i 0 5) = true ∧ ∃ t, exec (.meC2i 0 5) cipher = .next t := ⟨by decide, _, rfl⟩

theorem witness_SignedReadingOfAWord : (1 ≤ 128) ∧ 2 ^ 127 < 2 ^ 128 ∧ (2 : Nat) ^ 127 - 1 < 2 ^ (128 - 1) ∧
    (-2 : Int) ^ 127 ≤ -1 := by decide

theorem witness_PolynomialProductLaws : (0x83 ≠ 0) ∧ (5 ≠ 0) := by decide

theorem witness_PolynomialDivision : (0x83 ≠ 0) ∧ deg 0x7F < deg 0x83 := by decide

/-- Register 3 of `fresh` is 7 (degree 2), 6 is 0x83 (degree 7 = NMAX), 7 is of degree 8, 1 of degree 0. -/
theorem witness_GfInitBuildsTheField :
    fresh.Inv ∧ fresh.faulted = false ∧ fresh.ready = false ∧ 1 ≤ deg (readReg fresh 6) ∧
    deg (readReg fresh 6) ≤ fresh.cfg.nmax ∧ deg (readReg fresh 1) < 1 ∧
    (fresh.cfg.nmax : Int) < deg (readReg fresh 7) ∧ small.Inv ∧ small.faulted = false ∧ small.ready = true := by
  decide

theorem witness_TableHoldsThePowersOfX : small.Inv ∧ small.ready = true ∧ 6 ≤ 2 ^ small.ndeg - 2 := by decide

theorem witness_PrimitiveTableHoldsEveryElementOnce :
    small.Inv ∧ small.ready = true ∧ PrimitiveGenerator small.gen ∧ 7 < 2 ^ small.ndeg := by decide

/-- The reference generator 0x83 is primitive (95_test_vectors.md, 2.1), and 0x1F is not. -/
theorem witness_PrimitiveGenerator : PrimitiveGenerator 0x83 ∧ ¬PrimitiveGenerator 0x1F := by decide +kernel

theorem witness_ExponentsOutOfRangeFault :
    small.faulted = false ∧ small.ready = true ∧ signedReg small 5 < -1 ∧
    (2 : Int) ^ small.ndeg - 2 < signedReg small 3 := by decide

/-- Registers of `small`: 3 is above the exponents, 4 is -1, 0 is 0, 2 is `2^n - 2`. -/
theorem witness_GfElemReadsTheElement :
    (fresh.Inv ∧ fresh.faulted = false ∧ fresh.ready = false) ∧ (small.Inv ∧ small.faulted = false ∧ small.ready = true) ∧
    ¬ValidExponent small.ndeg (signedReg small 3) ∧
    (ValidExponent small.ndeg (signedReg small 4) ∧ signedReg small 4 = -1) ∧
    (ValidExponent small.ndeg (signedReg small 0) ∧ signedReg small 0 = 0) ∧
    (ValidExponent small.ndeg (signedReg small 2) ∧ signedReg small 2 = (2 : Int) ^ small.ndeg - 2) :=
  ⟨fresh_meets, small_meets, by decide⟩

/-- Registers of `small`: 6 is no element, 3 is the largest one, 0 and 1 the two named; in `odd`, 3 is missing. -/
theorem witness_GfLogFindsTheLowestIndex :
    (fresh.Inv ∧ fresh.faulted = false ∧ fresh.ready = false) ∧ (small.Inv ∧ small.faulted = false ∧ small.ready = true) ∧
    2 ^ small.ndeg ≤ readReg small 6 ∧
    (readReg small 3 < 2 ^ small.ndeg ∧ small.ft[6]? = some (readReg small 3) ∧
      ∀ k < 6, small.ft[k]? ≠ some (readReg small 3)) ∧
    readReg small 0 = 0 ∧ readReg small 1 = 1 ∧
    (odd.Inv ∧ odd.faulted = false ∧ odd.ready = true) ∧ (readReg odd 2 < 2 ^ odd.ndeg ∧ readReg odd 2 ∉ odd.ft) :=
  ⟨fresh_meets, small_meets, by decide, by decide, by decide, by decide, odd_meets, by decide⟩

/-- `odd.ft[1] ^ odd.ft[2] = 3` is in no entry of the table of 11111. -/
theorem witness_GfAddLooksUpTheXor :
    (fresh.Inv ∧ fresh.faulted = false ∧ fresh.ready = false) ∧ (small.Inv ∧ small.faulted = false ∧ small.ready = true) ∧
    ¬(ValidExponent small.ndeg (signedReg small 2) ∧ ValidExponent small.ndeg (signedReg small 3)) ∧
    (ValidExponent small.ndeg (signedReg small 4) ∧ ValidExponent small.ndeg (signedReg small 2)) ∧
    (odd.Inv ∧ odd.faulted = false ∧ odd.ready = true) ∧ (ValidExponent odd.ndeg (signedReg odd 0) ∧
      ValidExponent odd.ndeg (signedReg odd 1) ∧ (1 ^^^ 2) ∉ odd.ft) :=
  ⟨fresh_meets, small_meets, by decide, by decide, odd_meets, by decide⟩

theorem witness_GfMulAddsExponents :
    (fresh.Inv ∧ fresh.faulted = false ∧ fresh.ready = false) ∧ (small.Inv ∧ small.faulted = false ∧ small.ready = true) ∧
    ¬(ValidExponent small.ndeg (signedReg small 5) ∧ ValidExponent small.ndeg (signedReg small 2)) ∧
    (ValidExponent small.ndeg (signedReg small 4) ∧ signedReg small 4 = -1) ∧
    (ValidExponent small.ndeg (signedReg small 2) ∧ signedReg small 2 ≠ -1) :=
  ⟨fresh_meets, small_meets, by decide⟩

theorem witness_GfPowRepeatsMultiplication :
    (fresh.Inv ∧ fresh.faulted = false ∧ fresh.ready = false) ∧ (small.Inv ∧ small.faulted = false ∧ small.ready = true) ∧
    ¬ValidExponent small.ndeg (signedReg small 3) ∧ readReg small 0 = 0 ∧ readReg small 4 ≠ 0 ∧
    (ValidExponent small.ndeg (signedReg small 4) ∧ signedReg small 4 = -1) ∧
    (ValidExponent small.ndeg (signedReg small 0) ∧ signedReg small 0 = 0) ∧
    (ValidExponent small.ndeg (signedReg small 2) ∧ 1 ≤ signedReg small 2) :=
  ⟨fresh_meets, small_meets, by decide⟩

theorem witness_ElementAndLogAreInverse :
    small.FieldReady ∧ PrimitiveGenerator small.gen ∧ ValidExponent small.ndeg (signedReg small 4) ∧
    readReg small 3 < 2 ^ small.ndeg := by decide

/-- Register 3 of `small` is 7: a count that is no valid exponent. -/
theorem witness_FieldOperationsAreClosed :
    small.FieldReady ∧ PrimitiveGenerator small.gen ∧ ValidExponent small.ndeg (signedReg small 4) ∧
    ¬ValidExponent small.ndeg (signedReg small 3) ∧
    ValidExponent small.ndeg (signedReg small 2) ∧ signedReg small 4 = -1 := by decide

theorem witness_MultiplicationIsTheCyclicGroup :
    (1 ≤ 3) ∧ ValidExponent 3 (-1) ∧ ValidExponent 3 6 ∧ ValidExponent 3 0 := by decide

theorem witness_MultiplicationIsThePolynomialProduct :
    small.Inv ∧ small.ready = true ∧ PrimitiveGenerator small.gen ∧ ValidExponent small.ndeg (-1) ∧
    ValidExponent small.ndeg 6 := by decide

/-- The widest word that fits has degree `XW - 1 - n`. -/
theorem witness_CcEncMultipliesByTheGenerator :
    (fresh.Inv ∧ fresh.faulted = false ∧ fresh.ready = false) ∧ (small.Inv ∧ small.faulted = false ∧ small.ready = true) ∧
    (readReg small 4 ≠ 0 ∧ (small.cfg.xw : Int) ≤ deg (readReg small 4) + small.ndeg) ∧
    readReg small 0 = 0 ∧ readReg small 1 = 1 ∧
    ((writeReg small 0 (2 ^ 124)).Inv ∧ deg (2 ^ 124) + small.ndeg < small.cfg.xw ∧
      ¬deg (2 ^ 125) + small.ndeg < (small.cfg.xw : Int)) :=
  ⟨fresh_meets, small_meets, by decide⟩

theorem witness_CcQuoDividesByTheGenerator :
    (fresh.Inv ∧ fresh.faulted = false ∧ fresh.ready = false) ∧ (small.Inv ∧ small.faulted = false ∧ small.ready = true) ∧
    deg (readReg small 3) < small.ndeg ∧ deg (readReg small 6) = small.ndeg ∧ small.ndeg < len (readReg small 4) :=
  ⟨fresh_meets, small_meets, by decide⟩

theorem witness_CcSynIsTheRemainder :
    (fresh.Inv ∧ fresh.faulted = false ∧ fresh.ready = false) ∧ (small.Inv ∧ small.faulted = false ∧ small.ready = true) ∧
    deg (readReg small 3) < small.ndeg ∧ readReg small 6 = small.gen ∧ readReg small 6 = pmul 1 small.gen ∧
    (6 ≤ 2 ^ small.ndeg - 2 ∧ readReg small 0 ^^^ 64 = pmul 0 small.gen ^^^ (1 <<< 6)) :=
  ⟨fresh_meets, small_meets, by decide⟩

theorem witness_CcLocIsTheLogOfTheRemainder :
    (fresh.Inv ∧ fresh.faulted = false ∧ fresh.ready = false) ∧ (small.Inv ∧ small.faulted = false ∧ small.ready = true) ∧
    (small.ft[6]? = some (pmod (readReg small 3) small.gen) ∧
      ∀ k < 6, small.ft[k]? ≠ some (pmod (readReg small 3) small.gen)) ∧
    pmod (readReg small 6) small.gen = 0 ∧
    (odd.Inv ∧ odd.faulted = false ∧ odd.ready = true) ∧ ( pmod (readReg odd 2) odd.gen ∉ odd.ft) :=
  ⟨fresh_meets, small_meets, by decide, by decide, odd_meets, by decide⟩

theorem witness_CcDecCorrectsTheReceivedWord :
    (fresh.Inv ∧ fresh.faulted = false ∧ fresh.ready = false) ∧ (small.Inv ∧ small.faulted = false ∧ small.ready = true) ∧
    pmod (readReg small 6) small.gen = 0 ∧
    (pmod (readReg small 3) small.gen ≠ 0 ∧ small.ft[5 + 1]? = some (pmod (readReg small 3) small.gen) ∧
      ∀ k < 5 + 1, small.ft[k]? ≠ some (pmod (readReg small 3) small.gen)) ∧
    (odd.Inv ∧ odd.faulted = false ∧ odd.ready = true) ∧ ( pmod (readReg odd 2) odd.gen ∉ odd.ft) :=
  ⟨fresh_meets, small_meets, by decide, by decide, odd_meets, by decide⟩

theorem witness_DecodingACodewordGivesTheWord :
    small.FieldReady ∧ len (readReg small 7) + small.ndeg ≤ small.cfg.xw ∧
    odd.FieldReady ∧ len (readReg odd 3) + odd.ndeg ≤ odd.cfg.xw := by decide

/-- 7 is the codeword 100111 of 5 with bit 5 flipped; 64 is the codeword 0 with bit 6, the last, flipped. -/
theorem witness_SingleBitErrorsAreCorrected :
    small.FieldReady ∧ PrimitiveGenerator small.gen ∧ 5 ≤ 2 ^ small.ndeg - 2 ∧ 5 < small.cfg.xw ∧
    readReg small 3 = pmul 5 small.gen ^^^ (1 <<< 5) ∧
    (writeReg small 0 64).FieldReady ∧ 6 ≤ 2 ^ small.ndeg - 2 ∧
    readReg (writeReg small 0 64) 0 = pmul 0 small.gen ^^^ (1 <<< 6) :=
  ⟨by decide, by decide, by decide, by decide, by decide, by decide, by decide, by decide⟩

/-- Bit 127 of the zero codeword: beyond the code's length. -/
theorem witness_NoReceivedWordFaultsTheDecoder :
    (writeReg small 0 (2 ^ 127)).FieldReady ∧ PrimitiveGenerator small.gen ∧
    readReg (writeReg small 0 (2 ^ 127)) 0 = pmul 0 small.gen ^^^ (1 <<< 127) := by decide

theorem witness_SqmIsModularExponentiation : (3232 < 3233) ∧ (1 ≤ 1) ∧ (0 < 3233) ∧ 1 < 3233 := by decide

theorem witness_MeExpIsModularExponentiation :
    cipher.faulted = false ∧ cipher.cfg.kn ≤ readReg cipher 3 ∧ readReg cipher 0 = 0 ∧
    readReg cipher 2 < cipher.cfg.kn ∧ 1 ≤ readReg cipher 1 := by decide

theorem witness_MeEncrAndMeDecrUseTheConstants :
    cipher.faulted = false ∧ 1 ≤ cipher.cfg.ke ∧ 1 ≤ cipher.cfg.kd ∧ cipher.cfg.kn ≤ readReg cipher 3 ∧
    readReg cipher 2 < cipher.cfg.kn := by decide

theorem witness_MeC2iMapsCharacterCodes :
    cipher.faulted = false ∧ alpha[26]? = some 0x41#8 ∧ readReg cipher 5 = (0x41#8).toNat ∧
    ∀ c ∈ alpha, readReg cipher 2 ≠ c.toNat := by decide

theorem witness_MeI2cMapsAlphabetValues :
    cipher.faulted = false ∧ readReg cipher 1 < 2 ∧ 68 < readReg cipher 7 ∧
    (2 ≤ readReg cipher 6 ∧ readReg cipher 6 ≤ 68) := by decide

/-- The spec's example set meets the constraints on the cipher's parameters (D7, G4). -/
theorem witness_cipher_parameters : Config.reference.CipherParameters :=
  ⟨61, 53, by norm_num, by norm_num, by decide, by decide, by decide⟩

theorem witness_CipherRoundTrip :
    cipher.Inv ∧ cipher.faulted = false ∧ cipher.cfg.CipherParameters ∧ readReg cipher 2 < cipher.cfg.kn ∧
    0x41#8 ∈ alpha ∧ readReg cipher 5 = (0x41#8).toNat :=
  ⟨by decide, by decide, witness_cipher_parameters, by decide, by decide, by decide⟩

theorem witness_StepKeepsTheInvariant :
    (withHost [.cmd 0x2953] small).Inv ∧ ∃ t, step (withHost [.cmd 0x2953] small) = .next t := ⟨by decide, _, rfl⟩

theorem witness_ResetMeetsTheInvariant : Config.reference.WellFormed := by decide

theorem witness_EveryTransactionCompletes : (withHost [.wrx 0 allOnes] small).Inv ∧ dead.Inv := by decide

end Sys2Proof.Tests
end

section
/-! Registers and the signed reading of their values: the family `00_scope.md` (R12, R13, R21, R23, R143). -/

namespace Sys2Proof.Machine

/-! ### Signed readings (R12); a word of width `w + 1` has `w` as its top bit -/

theorem sx_of_lt {w v : Nat} (h : v < 2 ^ w) : sx (w + 1) v = v := by
  have hbit : v.testBit w = false := Nat.testBit_lt_two_pow h
  simp [sx, hbit]

theorem sx_of_ge {w v : Nat} (h : 2 ^ w ≤ v) (hv : v < 2 ^ (w + 1)) :
    sx (w + 1) v = (v : Int) - 2 ^ (w + 1) := by
  have hbit : v.testBit w = true := Nat.testBit_of_two_pow_le_and_two_pow_add_one_gt h hv
  simp [sx, hbit]

theorem coe_sext_of_nonneg (xw : Nat) {k : Int} (h : 0 ≤ k) : (sext xw k : Int) = k := by
  rw [sext, if_neg (not_lt.2 h), Int.toNat_of_nonneg h]

theorem coe_sext_of_neg {xw : Nat} {k : Int} (h : k < 0) (hlo : -2 ^ xw ≤ k) : (sext xw k : Int) = k + 2 ^ xw := by
  rw [sext, if_pos h, Nat.cast_pow, Nat.cast_ofNat, Int.toNat_of_nonneg (by omega)]

/-- `sext` is the two's-complement word of every integer in the signed range: it fits, and reads back. -/
theorem sext_lt_and_sx_sext {w : Nat} {k : Int} (hlo : -2 ^ w ≤ k) (hhi : k ≤ 2 ^ w - 1) :
    sext (w + 1) k < 2 ^ (w + 1) ∧ sx (w + 1) (sext (w + 1) k) = k := by
  obtain h | h := lt_or_ge k 0
  · have hword : (sext (w + 1) k : Int) = k + 2 ^ (w + 1) := coe_sext_of_neg h (by omega)
    have hfit : sext (w + 1) k < 2 ^ (w + 1) := by zify; omega
    have htop : 2 ^ w ≤ sext (w + 1) k := by zify; omega
    exact ⟨hfit, by rw [sx_of_ge htop hfit, hword, add_sub_cancel_right]⟩
  · have hword : (sext (w + 1) k : Int) = k := coe_sext_of_nonneg _ h
    have hlow : sext (w + 1) k < 2 ^ w := by zify; omega
    exact ⟨hlow.trans (Nat.pow_lt_pow_right (by decide) (Nat.lt_succ_self w)), by rw [sx_of_lt hlow, hword]⟩

/-- The word of `-1` has all bits set. -/
theorem sext_neg_one (xw : Nat) : sext xw (-1) = 2 ^ xw - 1 := by
  have hpos : 1 ≤ 2 ^ xw := Nat.one_le_two_pow
  zify [hpos]
  rw [coe_sext_of_neg (by decide) (by zify at hpos; omega)]
  omega

/-- Settles O27: the top bit splits the range of words in two halves, and `sext` moves the negative integers to the
upper one. -/
theorem signedReadingOfAWord : Obligations.SignedReadingOfAWord := by
  intro xw hxw
  obtain ⟨w, rfl⟩ := Nat.exists_eq_add_of_le' hxw
  refine ⟨fun v hv => ?_, fun k hlo hhi => sext_lt_and_sx_sext hlo hhi, sext_neg_one _⟩
  split
  · next h => exact sx_of_lt h
  · next h => exact sx_of_ge (not_lt.1 h) hv

/-! ### What register writes and commands leave unchanged -/

/-- Settles O19: R13 and R20, by the laws of `readReg` and `writeReg`. -/
theorem registerWriteChangesOneRegister : Obligations.RegisterWriteChangesOneRegister :=
  fun s rd v => ⟨readReg_writeReg_self s rd v, fun _ h => readReg_writeReg_of_ne s v h, rfl⟩

/-- A command with a destination that completes is CC.DEC, which writes its destination and CORR, or writes its
destination only. -/
theorem Completes.write_of_destination {s t : State} {i : Instr} {rd : RegNum} (hc : Completes s i t)
    (hd : destination i = some rd) :
    (∃ v, t = writeReg s rd v) ∨ ∃ rs1 v b, i = .ccDec rd rs1 ∧ t = writeCorr (writeReg s rd v) b := by
  cases hc with
  | init => cases hd
  | dec rd' rs1 v b =>
    cases hd
    exact .inr ⟨rs1, v, b, rfl, rfl⟩
  | write i rd' v hd' =>
    cases hd'.symm.trans hd
    exact .inl ⟨v, rfl⟩

/-- Settles O20: a faulted unit keeps its state, a fault writes the fault record, and a command that completes writes its
destination, and CORR under CC.DEC. -/
theorem registerCommandsFrame : Obligations.RegisterCommandsFrame := by
  intro i rd s t hd h
  obtain ⟨-, rfl⟩ | ⟨hf, c, -, rfl⟩ | ⟨-, hc⟩ := exec_outcomes h
  · simp
  · simp [hf]
  · obtain ⟨v, rfl⟩ | ⟨rs1, v, b, rfl, rfl⟩ := hc.write_of_destination hd
    all_goals simpa using fun r hr => readReg_writeReg_of_ne s v (i := rd) (r := r) hr

end Sys2Proof.Machine
end

section
/-! The state of the unit: its invariant (R20 to R32) and what each step leaves of it. The family `10_state.md`. -/

namespace Sys2Proof.Machine

variable {s : State} {i : Instr}

/-! ### The values a command can write fit in XW bits -/

theorem validExponent_neg_one (n : Nat) : ValidExponent n (-1) := by
  have := Nat.two_pow_pos n
  constructor <;> omega

theorem validExponent_zero {n : Nat} (hn : 1 ≤ n) : ValidExponent n 0 := by
  have := Nat.one_lt_two_pow (n := n) (by omega)
  constructor <;> omega

/-- The representatives modulo `2 ^ n - 1` are valid exponents. -/
theorem validExponent_emod {n : Nat} (hn : 1 ≤ n) (k : Int) : ValidExponent n (k % (((2 ^ n : Nat) : Int) - 1)) := by
  have hp := Nat.one_lt_two_pow (n := n) (by omega)
  have hlo := Int.emod_nonneg k (b := ((2 ^ n : Nat) : Int) - 1) (by omega)
  have hhi := Int.emod_lt_of_pos k (b := ((2 ^ n : Nat) : Int) - 1) (by omega)
  constructor <;> omega

theorem validExponent_mulExp {n : Nat} (hn : 1 ≤ n) (a b : Int) : ValidExponent n (mulExp n a b) := by
  unfold mulExp
  split
  · exact validExponent_neg_one n
  · exact validExponent_emod hn _

theorem validExponent_powExp {n : Nat} (hn : 1 ≤ n) {a : Int} (ha : ValidExponent n a) (p : Nat) :
    ValidExponent n (powExp n a p) := by
  unfold powExp
  split
  · exact validExponent_zero hn
  · split
    · exact ha
    · exact validExponent_emod hn _

/-- A lookup in a table of `2 ^ n` entries gives a valid exponent. -/
theorem validExponent_logIn {n : Nat} {ft : List Nat} (hlen : ft.length = 2 ^ n) {v : Nat} {e : Int}
    (he : logIn ft v = some e) : ValidExponent n e := by
  obtain ⟨j, rfl, hj, -⟩ := logIn_eq_some_iff.1 he
  have hlt := (List.getElem?_eq_some_iff.1 hj).1
  constructor <;> omega

/-- A valid exponent is written as an XW-bit value (R81): `-1` as all ones, any other as itself. -/
theorem sext_lt_of_validExponent {xw n : Nat} (hn : 2 ^ n ≤ 2 ^ xw) {e : Int} (he : ValidExponent n e) :
    sext xw e < 2 ^ xw := by
  obtain ⟨hlo, hhi⟩ := he
  obtain rfl | h0 : e = -1 ∨ 0 ≤ e := by omega
  · rw [sext_neg_one]
    exact Nat.sub_lt (Nat.two_pow_pos xw) Nat.one_pos
  · zify at hn ⊢
    rw [coe_sext_of_nonneg xw h0]
    push_cast at hhi
    omega

/-- The division loop of R15 keeps quotient and remainder within `w` bits. -/
theorem pdivLoop_lt {g w : Nat} (hg : 0 < len g) (fuel : Nat) {q r : Nat} (hq : q < 2 ^ w) (hr : r < 2 ^ w) :
    (pdivLoop g fuel q r).1 < 2 ^ w ∧ (pdivLoop g fuel q r).2 < 2 ^ w := by
  induction fuel generalizing q r with
  | zero => exact ⟨hq, hr⟩
  | succ fuel ih =>
    unfold pdivLoop
    split
    · next hle =>
      have hlen : len r ≤ w := len_le_iff.2 hr
      have hbit : 1 <<< (len r - len g) < 2 ^ w := by
        rw [Nat.one_shiftLeft]
        exact Nat.pow_lt_pow_right (by decide) (by omega)
      have hsub : g <<< (len r - len g) < 2 ^ w := by
        calc g <<< (len r - len g) = g * 2 ^ (len r - len g) := Nat.shiftLeft_eq _ _
          _ < 2 ^ len g * 2 ^ (len r - len g) := Nat.mul_lt_mul_of_pos_right (lt_two_pow_len g) (Nat.two_pow_pos _)
          _ = 2 ^ len r := by rw [← Nat.pow_add, Nat.add_sub_cancel' hle]
          _ ≤ 2 ^ w := Nat.pow_le_pow_right (by decide) hlen
      exact ih (Nat.or_lt_two_pow hq hbit) (Nat.xor_lt_two_pow hr hsub)
    · exact ⟨hq, hr⟩

theorem pquo_lt {a g w : Nat} (hg : 0 < len g) (ha : a < 2 ^ w) : pquo a g < 2 ^ w :=
  (pdivLoop_lt hg _ (Nat.two_pow_pos w) ha).1

theorem pmod_lt {a g w : Nat} (hg : 0 < len g) (ha : a < 2 ^ w) : pmod a g < 2 ^ w :=
  (pdivLoop_lt hg _ (Nat.two_pow_pos w) ha).2

/-- The accumulator of the square-and-multiply loop stays a residue. -/
theorem sqmLoop_lt {kn num : Nat} (exp k : Nat) {acc : Nat} (hacc : acc < kn) : sqmLoop kn num exp k acc < kn := by
  have hmod (a b : Nat) : mulmod kn a b < kn := Nat.mod_lt _ (by omega)
  induction k generalizing acc with
  | zero => exact hacc
  | succ k ih =>
    unfold sqmLoop
    apply ih
    split
    · exact hmod _ _
    · exact hmod _ _

theorem sqm_lt {kn num : Nat} (exp : Nat) (h : num < kn) : sqm kn num exp < kn := sqmLoop_lt exp _ h

/-- An alphabet value is at most 68 (R129), so it fits in 8 bits. -/
theorem charToInt_lt {k : Word} {v : Nat} (h : charToInt k = some v) : v < 2 ^ 8 := by
  obtain ⟨j, hj, rfl⟩ := Option.map_eq_some_iff.1 h
  have hlt : j < alpha.length := (List.findIdx?_eq_some_iff_getElem.1 hj).1
  have hlen : alpha.length = 67 := by decide
  omega

/-! ### What the invariant gives -/

theorem State.Inv.registersFit (h : s.Inv) : s.RegistersFit := by
  obtain ⟨-, hx, -⟩ := h
  exact hx

theorem State.Inv.fieldRecord_of_ready (h : s.Inv) (hr : s.ready = true) :
    1 ≤ s.ndeg ∧ s.ndeg ≤ s.cfg.nmax ∧ len s.gen = s.ndeg + 1 ∧ s.ft = buildTable s.gen s.ndeg := by
  obtain ⟨-, -, -, hfield, -⟩ := h
  simpa [State.FieldRecord, hr] using hfield

theorem State.Inv.kn_lt (h : s.Inv) : s.cfg.kn < 2 ^ s.cfg.xw := by
  obtain ⟨⟨-, -, -, hkn, -⟩, -⟩ := h
  exact len_le_iff.1 hkn

/-- A register holds every character code (R7). -/
theorem State.Inv.two_pow_eight_le (h : s.Inv) : 2 ^ 8 ≤ 2 ^ s.cfg.xw := by
  obtain ⟨⟨-, -, -, -, hxw, -⟩, -⟩ := h
  exact Nat.pow_le_pow_right (by decide) hxw

section ready

variable (h : s.Inv) (hr : s.ready = true)
include h hr

theorem State.Inv.one_le_ndeg : 1 ≤ s.ndeg := by
  obtain ⟨hn, -⟩ := h.fieldRecord_of_ready hr
  exact hn

theorem State.Inv.len_gen_pos : 0 < len s.gen := by
  obtain ⟨-, -, hlen, -⟩ := h.fieldRecord_of_ready hr
  omega

theorem State.Inv.length_ft : s.ft.length = 2 ^ s.ndeg := by
  obtain ⟨-, -, -, hft⟩ := h.fieldRecord_of_ready hr
  rw [hft, length_buildTable]

/-- A codeword of `2 ^ n - 1` bits fits in a register (R7). -/
theorem State.Inv.two_pow_ndeg_le : 2 ^ s.ndeg ≤ s.cfg.xw + 1 := by
  obtain ⟨-, hn, -, -⟩ := h.fieldRecord_of_ready hr
  obtain ⟨⟨-, hxw, -⟩, -⟩ := h
  have : 2 ^ s.ndeg ≤ 2 ^ s.cfg.nmax := Nat.pow_le_pow_right (by decide) hn
  omega

theorem State.Inv.two_pow_ndeg_le_two_pow_xw : 2 ^ s.ndeg ≤ 2 ^ s.cfg.xw :=
  (h.two_pow_ndeg_le hr).trans Nat.lt_two_pow_self

theorem State.Inv.tableEntry_lt {j v : Nat} (hv : s.ft[j]? = some v) : v < 2 ^ s.cfg.xw := by
  obtain ⟨-, -, -, hft⟩ := h.fieldRecord_of_ready hr
  rw [hft] at hv
  exact (lt_of_mem_buildTable (h.one_le_ndeg hr) (List.mem_of_getElem? hv)).trans_le (h.two_pow_ndeg_le_two_pow_xw hr)

theorem State.Inv.sext_lt {e : Int} (he : ValidExponent s.ndeg e) : sext s.cfg.xw e < 2 ^ s.cfg.xw :=
  sext_lt_of_validExponent (h.two_pow_ndeg_le_two_pow_xw hr) he

/-- The bit of a position the table can locate is a bit of the register (R7). -/
theorem State.Inv.one_shiftLeft_lt {e : Int} (he : ValidExponent s.ndeg e) : 1 <<< e.toNat < 2 ^ s.cfg.xw := by
  have hxw := h.two_pow_ndeg_le hr
  have hn : 1 < 2 ^ s.ndeg := Nat.one_lt_two_pow (Nat.one_le_iff_ne_zero.1 (h.one_le_ndeg hr))
  obtain ⟨-, hhi⟩ := he
  rw [Nat.one_shiftLeft]
  exact Nat.pow_lt_pow_right (by decide) (by omega)

end ready

/-! ### Each update of the state keeps the invariant -/

theorem one_le_causeCode_le (c : Cause) : 1 ≤ (causeCode c).toNat ∧ (causeCode c).toNat ≤ 11 := by
  cases c <;> decide

theorem takeFault_inv (h : s.Inv) (c : Cause) (w : CmdWord) : (takeFault s c w).Inv := by
  obtain ⟨hcfg, hx, -, hfield, hport⟩ := h
  exact ⟨hcfg, hx, one_le_causeCode_le c, hfield, hport⟩

theorem writeReg_inv (h : s.Inv) (rd : RegNum) {v : Word} (hv : v < 2 ^ s.cfg.xw) : (writeReg s rd v).Inv := by
  obtain ⟨hcfg, hx, hfault, hfield, hport⟩ := h
  refine ⟨hcfg, fun r => ?_, hfault, hfield, hport⟩
  rw [readReg_writeReg]
  split
  · exact hv
  · exact hx r

/-- CORR is free once the field is built; before, it is 0. -/
theorem writeCorr_inv (h : s.Inv) (hr : s.ready = true) (b : Bool) : (writeCorr s b).Inv := by
  have hready := h.fieldRecord_of_ready hr
  obtain ⟨hcfg, hx, hfault, -, hport⟩ := h
  exact ⟨hcfg, hx, hfault, by simpa [State.FieldRecord, hr] using hready, hport⟩

theorem installField_inv (h : s.Inv) {g : Nat} (h1 : 1 ≤ deg g) (h2 : deg g ≤ s.cfg.nmax) :
    (installField s g).Inv := by
  obtain ⟨hcfg, hx, hfault, -, hport⟩ := h
  have hfield : 1 ≤ len g - 1 ∧ len g - 1 ≤ s.cfg.nmax ∧ len g = len g - 1 + 1 := by
    unfold deg at h1 h2
    omega
  exact ⟨hcfg, hx, hfault, by simpa [State.FieldRecord] using hfield, hport⟩

theorem returnValue_inv (h : s.Inv) {v : Word} (hv : v < 2 ^ s.cfg.xw) : (returnValue s v).Inv := by
  obtain ⟨hcfg, hx, hfault, hfield, hret, hpend⟩ := h
  refine ⟨hcfg, hx, hfault, hfield, ?_, hpend⟩
  simpa [or_imp, forall_and, hv] using hret

theorem atReset_inv {c : Config} (hc : c.WellFormed) : (State.atReset c).Inv := by
  refine ⟨hc, fun r => ?_, ?_⟩
  · simp [readReg, State.atReset]
  · simp [State.FaultRecord, State.FieldRecord, State.PortFits, State.atReset]

/-- RESET keeps the host's lists and the constants; all else is as at reset. -/
theorem resetUnit_inv (h : s.Inv) : (resetUnit s).Inv := by
  obtain ⟨hcfg, -, -, -, hport⟩ := h
  obtain ⟨-, hx, hfault, hfield, -⟩ := atReset_inv hcfg
  exact ⟨hcfg, hx, hfault, hfield, hport⟩

theorem pendingTail_inv {tr : Transaction} {rest : List Transaction} (h : s.Inv) (hp : s.pending = tr :: rest) :
    ({ s with pending := rest } : State).Inv := by
  obtain ⟨hcfg, hx, hfault, hfield, hret, hpend⟩ := h
  exact ⟨hcfg, hx, hfault, hfield, hret, fun t ht => hpend t (by simp [hp, ht])⟩

/-! ### Outcomes that meet the invariant: one rule per shared operation -/

/-- Whatever next state the outcome answers meets the invariant. -/
def LeavesInv (k : Result) : Prop := ∀ t, k = .next t → t.Inv

theorem leavesInv_next (h : s.Inv) : LeavesInv (.next s) := by
  rintro t ⟨⟩
  exact h

section rules

variable (h : s.Inv)
include h

theorem leavesInv_raise (i : Instr) (c : Cause) : LeavesInv (raise i c s) := leavesInv_next (takeFault_inv h c _)

theorem leavesInv_unlessFaulted {k : Result} (hk : LeavesInv k) : LeavesInv (unlessFaulted s k) := by
  unfold unlessFaulted
  split
  · exact leavesInv_next h
  · exact hk

theorem leavesInv_check {ok : Prop} [Decidable ok] {c : Cause} {k : Result} (hk : ok → LeavesInv k) :
    LeavesInv (check ok i c s k) := by
  unfold check
  split
  · next hok => exact hk hok
  · exact leavesInv_raise h i c

/-- The two checks every command of the GF and CC families but GF.INIT begins with. -/
theorem leavesInv_fieldCommand {k : Result} (hk : s.ready = true → LeavesInv k) :
    LeavesInv (unlessFaulted s (needField i s k)) :=
  leavesInv_unlessFaulted h (leavesInv_check h hk)

theorem leavesInv_needLog (hr : s.ready = true) {v : Nat} {k : Int → Result}
    (hk : ∀ e, ValidExponent s.ndeg e → LeavesInv (k e)) : LeavesInv (needLog i s v k) := by
  unfold needLog
  split
  · next e he => exact hk e (validExponent_logIn (h.length_ft hr) he)
  · exact leavesInv_raise h i _

theorem leavesInv_readTable (hr : s.ready = true) {j : Nat} {k : Nat → Result}
    (hk : ∀ v, v < 2 ^ s.cfg.xw → LeavesInv (k v)) : LeavesInv (readTable s j k) := by
  intro t ht
  obtain ⟨v, hv, hkv⟩ := readTable_eq_next_iff.1 ht
  exact hk v (h.tableEntry_lt hr hv) t hkv

theorem leavesInv_writeReg {rd : RegNum} {v : Word} (hv : v < 2 ^ s.cfg.xw) : LeavesInv (.next (writeReg s rd v)) :=
  leavesInv_next (writeReg_inv h rd hv)

theorem leavesInv_writeExponent (hr : s.ready = true) {rd : RegNum} {e : Int} (he : ValidExponent s.ndeg e) :
    LeavesInv (.next (writeExponent s rd e)) :=
  leavesInv_writeReg h (h.sext_lt hr he)

/-- A modular exponentiation writes a residue. -/
theorem leavesInv_writeSqm {rd : RegNum} {num : Nat} (exp : Nat) (hnum : num < s.cfg.kn) :
    LeavesInv (.next (writeReg s rd (sqm s.cfg.kn num exp))) :=
  leavesInv_writeReg h ((sqm_lt exp hnum).trans h.kn_lt)

theorem leavesInv_ccDec (rd rs1 : RegNum) : LeavesInv (exec (.ccDec rd rs1) s) := by
  refine leavesInv_fieldCommand h fun hr => ?_
  have hdec {w : Nat} (hw : w < 2 ^ s.cfg.xw) (b : Bool) :
      LeavesInv (.next (writeCorr (writeReg s rd (pquo w s.gen)) b)) :=
    leavesInv_next (writeCorr_inv (writeReg_inv h rd (pquo_lt (h.len_gen_pos hr) hw)) hr b)
  split
  · exact hdec (h.registersFit rs1) false
  · refine leavesInv_needLog h hr fun e he => ?_
    exact hdec (Nat.xor_lt_two_pow (h.registersFit rs1) (h.one_shiftLeft_lt hr he)) true

/-- Every command leaves a state that meets the invariant. -/
theorem exec_leavesInv (i : Instr) : LeavesInv (exec i s) := by
  cases i with
  | gfInit rs1 =>
    exact leavesInv_unlessFaulted h <| leavesInv_check h fun _ => leavesInv_check h fun ⟨h1, h2⟩ =>
      leavesInv_next (installField_inv h h1 h2)
  | gfElem rd rs1 =>
    exact leavesInv_fieldCommand h fun hr => leavesInv_check h fun _ => leavesInv_readTable h hr fun v hv =>
      leavesInv_writeReg h hv
  | gfLog rd rs1 =>
    exact leavesInv_fieldCommand h fun hr => leavesInv_check h fun _ => leavesInv_needLog h hr fun e he =>
      leavesInv_writeExponent h hr he
  | gfAdd rd rs1 rs2 =>
    exact leavesInv_fieldCommand h fun hr => leavesInv_check h fun _ => leavesInv_check h fun _ =>
      leavesInv_readTable h hr fun u _ => leavesInv_readTable h hr fun v _ => leavesInv_needLog h hr fun e he =>
      leavesInv_writeExponent h hr he
  | gfMul rd rs1 rs2 =>
    exact leavesInv_fieldCommand h fun hr => leavesInv_check h fun _ => leavesInv_check h fun _ =>
      leavesInv_writeExponent h hr (validExponent_mulExp (h.one_le_ndeg hr) _ _)
  | gfPow rd rs1 rs2 =>
    exact leavesInv_fieldCommand h fun hr => leavesInv_check h fun ha =>
      leavesInv_writeExponent h hr (validExponent_powExp (h.one_le_ndeg hr) ha _)
  | ccEnc rd rs1 =>
    exact leavesInv_fieldCommand h fun _ => leavesInv_check h fun hlen => leavesInv_writeReg h (len_le_iff.1 hlen)
  | ccQuo rd rs1 =>
    exact leavesInv_fieldCommand h fun hr => leavesInv_writeReg h (pquo_lt (h.len_gen_pos hr) (h.registersFit rs1))
  | ccSyn rd rs1 =>
    exact leavesInv_fieldCommand h fun hr => leavesInv_writeReg h (pmod_lt (h.len_gen_pos hr) (h.registersFit rs1))
  | ccLoc rd rs1 =>
    exact leavesInv_fieldCommand h fun hr => leavesInv_needLog h hr fun e he => leavesInv_writeExponent h hr he
  | ccDec rd rs1 => exact leavesInv_ccDec h rd rs1
  | meExp rd rs1 rs2 =>
    exact leavesInv_unlessFaulted h <| leavesInv_check h fun hnum => leavesInv_check h fun _ =>
      leavesInv_writeSqm h _ hnum
  | meEncr rd rs1 =>
    exact leavesInv_unlessFaulted h <| leavesInv_check h fun hnum => leavesInv_writeSqm h _ hnum
  | meDecr rd rs1 =>
    exact leavesInv_unlessFaulted h <| leavesInv_check h fun hnum => leavesInv_writeSqm h _ hnum
  | meC2i rd rs1 =>
    refine leavesInv_unlessFaulted h ?_
    split
    · next v hv => exact leavesInv_writeReg h ((charToInt_lt hv).trans_le h.two_pow_eight_le)
    · exact leavesInv_raise h _ _
  | meI2c rd rs1 =>
    refine leavesInv_unlessFaulted h ?_
    split
    · next c _ => exact leavesInv_writeReg h (c.isLt.trans_le h.two_pow_eight_le)
    · exact leavesInv_raise h _ _

theorem perform_leavesInv (tr : Transaction) : LeavesInv (perform tr s) := by
  intro t ht
  obtain ⟨-, rfl⟩ | ⟨i, v, -, hv, ⟨-, rfl⟩ | ⟨-, rfl⟩⟩ | ⟨i, -, rfl⟩ | ⟨c, -, rfl⟩ | ⟨w, i, -, -, he⟩ |
    ⟨w, e, -, -, ⟨-, rfl⟩ | ⟨-, rfl⟩⟩ := perform_outcomes ht
  · exact resetUnit_inv h
  · exact h
  · exact writeReg_inv h i hv
  · exact returnValue_inv h (h.registersFit i)
  · exact returnValue_inv h (readControl_lt s c)
  · exact exec_leavesInv h i t he
  · exact h
  · exact takeFault_inv h _ w

end rules

/-- Settles O58: one rule per shared operation, and what each command writes fits in XW bits. -/
theorem stepKeepsTheInvariant : Obligations.StepKeepsTheInvariant := by
  intro s t h hstep
  obtain ⟨-, rfl⟩ | ⟨tr, rest, hp, ht⟩ := step_outcomes hstep
  · exact h
  · exact perform_leavesInv (pendingTail_inv h hp) tr t ht

/-- Settles O59: by the values of R33. -/
theorem resetMeetsTheInvariant : Obligations.ResetMeetsTheInvariant :=
  ⟨fun _ hc => atReset_inv hc, atReset_inv (by decide)⟩

end Sys2Proof.Machine
end

section
/-! What a command and a step leave of the field, of CORR and of the constants, and the reset state (R23, R24, R32,
R33). -/

namespace Sys2Proof.Machine

variable {s t : State} {i : Instr}

/-! ### GF.INIT and the field (R21, R32, R82) -/

/-- A GF.INIT that completes installs the field of its operand, in a unit that has none. -/
theorem Completes.of_gfInit {rs1 : RegNum} (hc : Completes s (.gfInit rs1) t) :
    s.ready = false ∧ t = installField s (readReg s rs1) := by
  cases hc with
  | init _ hr => exact ⟨hr, rfl⟩
  | write _ _ _ hd => cases hd

/-- Settles O21: GF.INIT is ignored, or faults, or installs a field and does not fault. -/
theorem gfInitFrame : Obligations.GfInitFrame := by
  intro rs1 s t h
  obtain ⟨-, rfl⟩ | ⟨hf, c, -, rfl⟩ | ⟨hf, hc⟩ := exec_outcomes h
  · simp
  · simp [hf]
  · obtain ⟨-, rfl⟩ := hc.of_gfInit
    simp [hf]

/-- In a unit with a field no command changes READY, GEN, NDEG or the table. -/
theorem exec_keeps_field (hr : s.ready = true) (h : exec i s = .next t) :
    t.ready = true ∧ t.gen = s.gen ∧ t.ndeg = s.ndeg ∧ t.ft = s.ft := by
  obtain ⟨-, rfl⟩ | ⟨-, c, -, rfl⟩ | ⟨-, hc⟩ := exec_outcomes h
  · simp [hr]
  · simp [hr]
  · cases hc with
    | init _ hnone => simp [hr] at hnone
    | dec => simp [hr]
    | write => simp [hr]

theorem perform_keeps_field {tr : Transaction} (hr : s.ready = true) (htr : tr ≠ .reset)
    (h : perform tr s = .next t) : t.ready = true ∧ t.gen = s.gen ∧ t.ndeg = s.ndeg ∧ t.ft = s.ft := by
  obtain ⟨rfl, -⟩ | ⟨i, v, -, -, ⟨-, rfl⟩ | ⟨-, rfl⟩⟩ | ⟨i, -, rfl⟩ | ⟨c, -, rfl⟩ | ⟨w, i, -, -, he⟩ |
    ⟨w, e, -, -, ⟨-, rfl⟩ | ⟨-, rfl⟩⟩ := perform_outcomes h
  case inl => exact absurd rfl htr
  case inr.inr.inr.inr.inl => exact exec_keeps_field hr he
  all_goals simp [hr]

/-- Settles O23: only a GF.INIT that completes or a RESET writes the field, and READY = 1 stops the first. -/
theorem fieldIsImmutableUntilReset : Obligations.FieldIsImmutableUntilReset := by
  refine ⟨fun s t hr h hhead => ?_, fun s rs1 hr hf => ?_⟩
  · obtain ⟨-, rfl⟩ | ⟨tr, rest, hp, ht⟩ := step_outcomes h
    · exact ⟨hr, rfl, rfl, rfl⟩
    · exact perform_keeps_field (s := { s with pending := rest }) hr (by simpa [hp] using hhead) ht
  · exact (unlessFaulted_of_not_faulted hf _).trans (check_of_neg (by simp [hr]) _)

/-! ### The constants (R24, R29) -/

theorem exec_cfg (h : exec i s = .next t) : t.cfg = s.cfg := by
  obtain ⟨-, rfl⟩ | ⟨-, c, -, rfl⟩ | ⟨-, hc⟩ := exec_outcomes h
  · rfl
  · rfl
  · cases hc <;> rfl

theorem perform_cfg {tr : Transaction} (h : perform tr s = .next t) : t.cfg = s.cfg := by
  obtain ⟨-, rfl⟩ | ⟨i, v, -, -, ⟨-, rfl⟩ | ⟨-, rfl⟩⟩ | ⟨i, -, rfl⟩ | ⟨c, -, rfl⟩ | ⟨w, i, -, -, he⟩ |
    ⟨w, e, -, -, ⟨-, rfl⟩ | ⟨-, rfl⟩⟩ := perform_outcomes h
  case inr.inr.inr.inr.inl => exact exec_cfg he
  all_goals rfl

/-- Settles O24: no update of the state writes the constants. -/
theorem constantsNeverChange : Obligations.ConstantsNeverChange := by
  intro s t h
  obtain ⟨-, rfl⟩ | ⟨tr, rest, -, ht⟩ := step_outcomes h
  · rfl
  · exact perform_cfg (s := { s with pending := rest }) ht

/-! ### The reset state (R33) -/

/-- Without a field every command that needs it faults with NO_FIELD (R80, R100). -/
theorem exec_of_not_ready (hn : needsField i = true) (hf : s.faulted = false) (hr : s.ready = false) :
    exec i s = .next (takeFault s .noField (encode i)) := by
  have hcheck (k : Result) : unlessFaulted s (needField i s k) = .next (takeFault s .noField (encode i)) :=
    (unlessFaulted_of_not_faulted hf _).trans (check_of_neg (by simp [hr]) k)
  cases i with
  | gfInit | meExp | meEncr | meDecr | meC2i | meI2c => cases hn
  | _ => exact hcheck _

/-- Settles O12: RESET is performed in every state, and the field commands find READY = 0 after it. -/
theorem resetLeavesTheResetState : Obligations.ResetLeavesTheResetState := by
  intro s rest hp
  refine ⟨resetUnit { s with pending := rest }, step_of_pending hp, ?_⟩
  simpa using fun i hn => exec_of_not_ready (i := i) hn rfl rfl

/-! ### CORR (R23): no command reads it -/

/-- Where the first outcome is a next state, so is the second, and the two differ in CORR at most. -/
def AgreesButCorr (k k' : Result) : Prop := ∀ t, k = .next t → ∃ b, k' = .next (writeCorr t b)

section rules

variable {b : Bool} {k k' : Result}

theorem agreesButCorr_next (s : State) (b : Bool) : AgreesButCorr (.next s) (.next (writeCorr s b)) := by
  rintro t ⟨⟩
  exact ⟨b, rfl⟩

theorem agreesButCorr_unlessFaulted (hk : AgreesButCorr k k') :
    AgreesButCorr (unlessFaulted s k) (unlessFaulted (writeCorr s b) k') := by
  unfold unlessFaulted
  rw [writeCorr_faulted]
  split
  · exact agreesButCorr_next s b
  · exact hk

theorem agreesButCorr_raise (s : State) (b : Bool) (i : Instr) (c : Cause) :
    AgreesButCorr (raise i c s) (raise i c (writeCorr s b)) :=
  agreesButCorr_next (takeFault s c (encode i)) b

theorem agreesButCorr_check {ok : Prop} [Decidable ok] {c : Cause} (hk : AgreesButCorr k k') :
    AgreesButCorr (check ok i c s k) (check ok i c (writeCorr s b) k') := by
  unfold check
  split
  · exact hk
  · exact agreesButCorr_raise s b i c

theorem agreesButCorr_ite {p : Prop} [Decidable p] {l l' : Result} (hk : AgreesButCorr k k')
    (hl : AgreesButCorr l l') : AgreesButCorr (if p then k else l) (if p then k' else l') := by
  split
  · exact hk
  · exact hl

theorem agreesButCorr_readTable {j : Nat} {k k' : Nat → Result} (hk : ∀ v, AgreesButCorr (k v) (k' v)) :
    AgreesButCorr (readTable s j k) (readTable (writeCorr s b) j k') := by
  unfold readTable
  rw [writeCorr_ft]
  split
  · exact hk _
  · rintro t ⟨⟩

theorem agreesButCorr_needLog {v : Nat} {k k' : Int → Result} (hk : ∀ e, AgreesButCorr (k e) (k' e)) :
    AgreesButCorr (needLog i s v k) (needLog i (writeCorr s b) v k') := by
  unfold needLog
  rw [writeCorr_ft]
  split
  · exact hk _
  · exact agreesButCorr_raise s b i _

theorem agreesButCorr_writeReg (s : State) (b : Bool) (rd : RegNum) (v : Word) :
    AgreesButCorr (.next (writeReg s rd v)) (.next (writeReg (writeCorr s b) rd v)) :=
  agreesButCorr_next (writeReg s rd v) b

/-- CORR is the same where both outcomes write it. -/
theorem agreesButCorr_writeCorr (s : State) (b : Bool) (rd : RegNum) (v : Word) (c : Bool) :
    AgreesButCorr (.next (writeCorr (writeReg s rd v) c)) (.next (writeCorr (writeReg (writeCorr s b) rd v) c)) :=
  agreesButCorr_next (writeCorr (writeReg s rd v) c) c

end rules

theorem exec_agreesButCorr (i : Instr) (s : State) (b : Bool) : AgreesButCorr (exec i s) (exec i (writeCorr s b)) := by
  cases i with
  | gfInit rs1 =>
    exact agreesButCorr_unlessFaulted <| agreesButCorr_check <| agreesButCorr_check <|
      agreesButCorr_next (installField s (readReg s rs1)) b
  | gfElem =>
    exact agreesButCorr_unlessFaulted <| agreesButCorr_check <| agreesButCorr_check <| agreesButCorr_readTable fun _ =>
      agreesButCorr_writeReg s b _ _
  | gfLog =>
    exact agreesButCorr_unlessFaulted <| agreesButCorr_check <| agreesButCorr_check <| agreesButCorr_needLog fun _ =>
      agreesButCorr_writeReg s b _ _
  | gfAdd =>
    exact agreesButCorr_unlessFaulted <| agreesButCorr_check <| agreesButCorr_check <| agreesButCorr_check <|
      agreesButCorr_readTable fun _ => agreesButCorr_readTable fun _ => agreesButCorr_needLog fun _ =>
      agreesButCorr_writeReg s b _ _
  | gfMul =>
    exact agreesButCorr_unlessFaulted <| agreesButCorr_check <| agreesButCorr_check <| agreesButCorr_check <|
      agreesButCorr_writeReg s b _ _
  | gfPow | ccEnc =>
    exact agreesButCorr_unlessFaulted <| agreesButCorr_check <| agreesButCorr_check <| agreesButCorr_writeReg s b _ _
  | ccQuo | ccSyn =>
    exact agreesButCorr_unlessFaulted <| agreesButCorr_check <| agreesButCorr_writeReg s b _ _
  | ccLoc =>
    exact agreesButCorr_unlessFaulted <| agreesButCorr_check <| agreesButCorr_needLog fun _ =>
      agreesButCorr_writeReg s b _ _
  | ccDec =>
    exact agreesButCorr_unlessFaulted <| agreesButCorr_check <|
      agreesButCorr_ite (agreesButCorr_writeCorr s b _ _ _) <|
      agreesButCorr_needLog fun _ => agreesButCorr_writeCorr s b _ _ _
  | meExp =>
    exact agreesButCorr_unlessFaulted <| agreesButCorr_check <| agreesButCorr_check <| agreesButCorr_writeReg s b _ _
  | meEncr | meDecr =>
    exact agreesButCorr_unlessFaulted <| agreesButCorr_check <| agreesButCorr_writeReg s b _ _
  | meC2i rd rs1 =>
    refine agreesButCorr_unlessFaulted ?_
    simp only [characterCode_eq, readReg_writeCorr]
    split
    · exact agreesButCorr_writeReg s b _ _
    · exact agreesButCorr_raise s b _ _
  | meI2c rd rs1 =>
    refine agreesButCorr_unlessFaulted ?_
    simp only [alphabetValue_eq, readReg_writeCorr]
    split
    · exact agreesButCorr_writeReg s b _ _
    · exact agreesButCorr_raise s b _ _

theorem exec_corr_of_ne_ccDec (hi : ∀ rd rs1, i ≠ .ccDec rd rs1) (h : exec i s = .next t) : t.corr = s.corr := by
  obtain ⟨-, rfl⟩ | ⟨-, c, -, rfl⟩ | ⟨-, hc⟩ := exec_outcomes h
  · rfl
  · rfl
  · cases hc with
    | init => rfl
    | dec rd rs1 => exact absurd rfl (hi rd rs1)
    | write => rfl

/-- A CC.DEC that completes sets CORR by its first remainder (R105). -/
theorem Completes.corr_of_ccDec {rd rs1 : RegNum} (hc : Completes s (.ccDec rd rs1) t) :
    t.corr = true ↔ pmod (readReg s rs1) s.gen ≠ 0 := by
  cases hc with
  | dec _ _ v b _ hb => exact hb
  | write _ _ _ _ _ hi => exact absurd rfl (hi rd rs1)

theorem Completes.faulted_eq (hc : Completes s i t) : t.faulted = s.faulted := by
  cases hc <;> rfl

/-- Settles O22: by the outcomes of a command, and the rules under which CORR is not read. -/
theorem corrIsWrittenOnlyByCcDec : Obligations.CorrIsWrittenOnlyByCcDec := by
  refine ⟨fun i s t hi h => exec_corr_of_ne_ccDec hi h, fun rd rs1 s t hf h => ?_,
    fun i s t b h => exec_agreesButCorr i s b t h, fun c => rfl⟩
  obtain ⟨hf', -⟩ | ⟨-, c, -, rfl⟩ | ⟨-, hc⟩ := exec_outcomes h
  · simp [hf] at hf'
  · simp
  · exact ⟨fun _ => hc.corr_of_ccDec, fun ht => by simp [hc.faulted_eq, hf] at ht⟩

end Sys2Proof.Machine
end

section
/-! The command word: its fields, the decoder against the encoder and against the opcode map, the illegal words. The
family `30_encoding.md` (R61 to R65). -/

namespace Sys2Proof

variable {w : CmdWord} {i : Instr}

/-! ### The fields of format R (R61) -/

theorem toNat_append_eq_add {m n : Nat} (u : BitVec m) (v : BitVec n) :
    (u ++ v).toNat = u.toNat * 2 ^ n + v.toNat := by
  rw [BitVec.toNat_append, ← Nat.shiftLeft_add_eq_or_of_lt v.isLt, Nat.shiftLeft_eq]

/-- A field of a word, by the word's value. -/
theorem extractLsb'_eq_of_toNat {k n : Nat} {v : BitVec n} (h : w.toNat / 2 ^ k % 2 ^ n = v.toNat) :
    w.extractLsb' k n = v :=
  BitVec.eq_of_toNat_eq (by rw [BitVec.extractLsb'_toNat, Nat.shiftRight_eq_div_pow, h])

section fields

variable (fam : BitVec 3) (fn : BitVec 4) (rd rs1 rs2 : RegNum)

theorem toNat_formatR_eq_or : (formatR fam fn rd rs1 rs2).toNat =
    fam.toNat <<< 13 ||| fn.toNat <<< 9 ||| rd.toNat <<< 6 ||| rs1.toNat <<< 3 ||| rs2.toNat := by
  simp only [formatR, BitVec.toNat_append, Nat.shiftLeft_or_distrib, ← Nat.shiftLeft_add]

/-- The fields do not overlap, so the word is also their weighted sum. -/
theorem toNat_formatR : (formatR fam fn rd rs1 rs2).toNat =
    fam.toNat * 2 ^ 13 + fn.toNat * 2 ^ 9 + rd.toNat * 2 ^ 6 + rs1.toNat * 2 ^ 3 + rs2.toNat := by
  simp only [formatR, toNat_append_eq_add]
  omega

@[simp] theorem fieldFam_formatR : fieldFam (formatR fam fn rd rs1 rs2) = fam :=
  extractLsb'_eq_of_toNat (by rw [toNat_formatR]; omega)

@[simp] theorem fieldFn_formatR : fieldFn (formatR fam fn rd rs1 rs2) = fn :=
  extractLsb'_eq_of_toNat (by rw [toNat_formatR]; omega)

@[simp] theorem fieldRd_formatR : fieldRd (formatR fam fn rd rs1 rs2) = rd :=
  extractLsb'_eq_of_toNat (by rw [toNat_formatR]; omega)

@[simp] theorem fieldRs1_formatR : fieldRs1 (formatR fam fn rd rs1 rs2) = rs1 :=
  extractLsb'_eq_of_toNat (by rw [toNat_formatR]; omega)

@[simp] theorem fieldRs2_formatR : fieldRs2 (formatR fam fn rd rs1 rs2) = rs2 :=
  extractLsb'_eq_of_toNat (by rw [toNat_formatR]; omega)

end fields

/-- Settles O3: the word is the concatenation of its fields, which do not overlap. -/
theorem formatRPlacesItsFields : Obligations.FormatRPlacesItsFields := by
  intro fam fn rd rs1 rs2
  exact ⟨toNat_formatR_eq_or .., fieldFam_formatR .., fieldFn_formatR .., fieldRd_formatR .., fieldRs1_formatR ..,
    fieldRs2_formatR ..⟩

/-- Format R leaves no bit of a word out. -/
theorem formatR_fields (w : CmdWord) :
    formatR (fieldFam w) (fieldFn w) (fieldRd w) (fieldRs1 w) (fieldRs2 w) = w := by
  apply BitVec.eq_of_toNat_eq
  simp only [toNat_formatR, fieldFam, fieldFn, fieldRd, fieldRs1, fieldRs2, BitVec.extractLsb'_toNat,
    Nat.shiftRight_eq_div_pow]
  omega

theorem formatR_eq_iff {fam : BitVec 3} {fn : BitVec 4} {rd rs1 rs2 : RegNum} :
    formatR fam fn rd rs1 rs2 = w ↔
      fieldFam w = fam ∧ fieldFn w = fn ∧ fieldRd w = rd ∧ fieldRs1 w = rs1 ∧ fieldRs2 w = rs2 := by
  constructor
  · rintro rfl
    simp
  · rintro ⟨rfl, rfl, rfl, rfl, rfl⟩
    exact formatR_fields w

/-- A masked word is compared field by field. -/
theorem and_eq_formatR_iff {m : CmdWord} {fam : BitVec 3} {fn : BitVec 4} {rd rs1 rs2 : RegNum} :
    w &&& m = formatR fam fn rd rs1 rs2 ↔
      fieldFam w &&& fieldFam m = fam ∧ fieldFn w &&& fieldFn m = fn ∧ fieldRd w &&& fieldRd m = rd ∧
        fieldRs1 w &&& fieldRs1 m = rs1 ∧ fieldRs2 w &&& fieldRs2 m = rs2 := by
  rw [eq_comm, formatR_eq_iff]
  simp only [fieldFam, fieldFn, fieldRd, fieldRs1, fieldRs2, BitVec.extractLsb'_and]

/-! ### The decoder against the encoder (R63) -/

/-- Settles O1: every field of a command's word reads back, so the decoder takes the branch of that command. -/
theorem decodeInvertsEncode : Obligations.DecodeInvertsEncode := by
  intro i
  cases i with
  | gfInit | gfElem | gfLog | gfAdd | gfMul | gfPow => simp [encode, decode, decodeGf, whenZero]
  | ccEnc | ccQuo | ccSyn | ccLoc | ccDec => simp [encode, decode, decodeCc, whenZero]
  | meExp | meEncr | meDecr | meC2i | meI2c => simp [encode, decode, decodeMe, whenZero]

theorem whenZero_eq_ok_iff {b : Bool} {j : Instr} : whenZero b i = .ok j ↔ b = true ∧ i = j := by
  cases b <;> simp [whenZero]

@[simp] theorem exists_whenZero_eq_error_iff {b : Bool} : (∃ e, whenZero b i = .error e) ↔ b = false := by
  cases b <;> simp [whenZero]

/-- `fam` and `fn` in the form in which the decoder's branches give them. -/
theorem formatR_eq_of_toNat {fam : BitVec 3} {fn : BitVec 4} {rd rs2 : RegNum}
    (hfam : (fieldFam w).toNat = fam.toNat) (hfn : (fieldFn w).toNat = fn.toNat) (hrd : fieldRd w = rd)
    (hrs2 : fieldRs2 w = rs2) : formatR fam fn rd (fieldRs1 w) rs2 = w :=
  formatR_eq_iff.2 ⟨BitVec.eq_of_toNat_eq hfam, BitVec.eq_of_toNat_eq hfn, hrd, rfl, hrs2⟩

theorem encode_of_decodeGf (hfam : (fieldFam w).toNat = 1) (h : decodeGf w = .ok i) : encode i = w := by
  unfold decodeGf at h
  split at h
  case h_1 hfn =>
    obtain ⟨hz, rfl⟩ := whenZero_eq_ok_iff.1 h
    obtain ⟨hrd, hrs2⟩ : fieldRd w = 0 ∧ fieldRs2 w = 0 := by simpa using hz
    exact formatR_eq_of_toNat hfam hfn hrd hrs2
  case h_2 hfn | h_3 hfn =>
    obtain ⟨hz, rfl⟩ := whenZero_eq_ok_iff.1 h
    exact formatR_eq_of_toNat hfam hfn rfl (eq_of_beq hz)
  case h_4 hfn | h_5 hfn | h_6 hfn =>
    cases h
    exact formatR_eq_of_toNat hfam hfn rfl rfl
  case h_7 => cases h

theorem encode_of_decodeCc (hfam : (fieldFam w).toNat = 2) (h : decodeCc w = .ok i) : encode i = w := by
  unfold decodeCc at h
  split at h
  case h_6 => cases h
  all_goals next hfn =>
    obtain ⟨hz, rfl⟩ := whenZero_eq_ok_iff.1 h
    exact formatR_eq_of_toNat hfam hfn rfl (eq_of_beq hz)

theorem encode_of_decodeMe (hfam : (fieldFam w).toNat = 3) (h : decodeMe w = .ok i) : encode i = w := by
  unfold decodeMe at h
  split at h
  case h_1 hfn =>
    cases h
    exact formatR_eq_of_toNat hfam hfn rfl rfl
  case h_6 => cases h
  all_goals next hfn =>
    obtain ⟨hz, rfl⟩ := whenZero_eq_ok_iff.1 h
    exact formatR_eq_of_toNat hfam hfn rfl (eq_of_beq hz)

/-- Settles O2: the branch the decoder took gives `fam`, `fn` and the must-be-zero fields of the word; the other fields
are the command's registers. -/
theorem encodeInvertsDecode : Obligations.EncodeInvertsDecode := by
  intro w i h
  unfold decode at h
  split at h
  case h_1 hfam => exact encode_of_decodeGf hfam h
  case h_2 hfam => exact encode_of_decodeCc hfam h
  case h_3 hfam => exact encode_of_decodeMe hfam h
  case h_4 => cases h

theorem decode_eq_ok_iff : decode w = .ok i ↔ encode i = w := by
  constructor
  · exact encodeInvertsDecode w i
  · rintro rfl
    exact decodeInvertsEncode i

/-! ### The decoder against the opcode map (R63) -/

/-- The command of the same row whose registers are those in the fields of `w`. -/
def withRegistersOf (w : CmdWord) : Instr → Instr
  | .gfInit _ => .gfInit (fieldRs1 w)
  | .gfElem _ _ => .gfElem (fieldRd w) (fieldRs1 w)
  | .gfLog _ _ => .gfLog (fieldRd w) (fieldRs1 w)
  | .gfAdd _ _ _ => .gfAdd (fieldRd w) (fieldRs1 w) (fieldRs2 w)
  | .gfMul _ _ _ => .gfMul (fieldRd w) (fieldRs1 w) (fieldRs2 w)
  | .gfPow _ _ _ => .gfPow (fieldRd w) (fieldRs1 w) (fieldRs2 w)
  | .ccEnc _ _ => .ccEnc (fieldRd w) (fieldRs1 w)
  | .ccQuo _ _ => .ccQuo (fieldRd w) (fieldRs1 w)
  | .ccSyn _ _ => .ccSyn (fieldRd w) (fieldRs1 w)
  | .ccLoc _ _ => .ccLoc (fieldRd w) (fieldRs1 w)
  | .ccDec _ _ => .ccDec (fieldRd w) (fieldRs1 w)
  | .meExp _ _ _ => .meExp (fieldRd w) (fieldRs1 w) (fieldRs2 w)
  | .meEncr _ _ => .meEncr (fieldRd w) (fieldRs1 w)
  | .meDecr _ _ => .meDecr (fieldRd w) (fieldRs1 w)
  | .meC2i _ _ => .meC2i (fieldRd w) (fieldRs1 w)
  | .meI2c _ _ => .meI2c (fieldRd w) (fieldRs1 w)

theorem opcodeRow_withRegistersOf (w : CmdWord) (i : Instr) : opcodeRow (withRegistersOf w i) = opcodeRow i := by
  cases i <;> rfl

theorem withRegistersOf_encode (i : Instr) : withRegistersOf (encode i) i = i := by
  cases i <;> simp [withRegistersOf, encode]

/-! Every mask of the map selects whole fields, so a match fixes those fields and leaves the others free. -/

section masks

variable {mask pattern : CmdWord} {fam : BitVec 3} {fn : BitVec 4} (hp : pattern = formatR fam fn 0 0 0)
include hp

theorem threeRegisterMask_iff (hm : mask = formatR (.allOnes 3) (.allOnes 4) 0 0 0) :
    w &&& mask = pattern ↔ formatR fam fn (fieldRd w) (fieldRs1 w) (fieldRs2 w) = w := by
  simp [hm, hp, and_eq_formatR_iff, formatR_eq_iff, BitVec.and_allOnes, -BitVec.reduceAllOnes]

theorem twoRegisterMask_iff (hm : mask = formatR (.allOnes 3) (.allOnes 4) 0 0 (.allOnes 3)) :
    w &&& mask = pattern ↔ formatR fam fn (fieldRd w) (fieldRs1 w) 0 = w := by
  simp [hm, hp, and_eq_formatR_iff, formatR_eq_iff, BitVec.and_allOnes, -BitVec.reduceAllOnes]

theorem oneRegisterMask_iff (hm : mask = formatR (.allOnes 3) (.allOnes 4) (.allOnes 3) 0 (.allOnes 3)) :
    w &&& mask = pattern ↔ formatR fam fn 0 (fieldRs1 w) 0 = w := by
  simp [hm, hp, and_eq_formatR_iff, formatR_eq_iff, BitVec.and_allOnes, -BitVec.reduceAllOnes]

end masks

/-- A word matches a row exactly when it is the word of the row's command with the registers in its own fields. -/
theorem row_matches_iff : w &&& (opcodeRow i).mask = (opcodeRow i).pattern ↔ encode (withRegistersOf w i) = w := by
  cases i with
  | gfInit => exact oneRegisterMask_iff rfl rfl
  | gfAdd | gfMul | gfPow | meExp => exact threeRegisterMask_iff rfl rfl
  | _ => exact twoRegisterMask_iff rfl rfl

theorem opcodeRow_mem_opcodeTable (i : Instr) : opcodeRow i ∈ opcodeTable := by
  cases i <;> simp [opcodeTable, opcodeRow]

theorem exists_opcodeRow_eq : ∀ r ∈ opcodeTable, ∃ i, opcodeRow i = r := by
  simp [opcodeTable]

/-- Settles O4: the word of a command matches the command's row, and a word that matches a row is the word of a command
of it. -/
theorem matchAndMaskSelectTheCommand : Obligations.MatchAndMaskSelectTheCommand := by
  intro w r hr
  obtain ⟨i, rfl⟩ := exists_opcodeRow_eq r hr
  constructor
  · rintro ⟨j, hj, hrow⟩
    rw [← hrow, row_matches_iff, ← decode_eq_ok_iff.1 hj, withRegistersOf_encode]
  · intro h
    exact ⟨withRegistersOf w i, decode_eq_ok_iff.2 (row_matches_iff.1 h), opcodeRow_withRegistersOf w i⟩

/-! ### The illegal words (R65) -/

theorem matches_no_row_iff : (∀ r ∈ opcodeTable, w &&& r.mask ≠ r.pattern) ↔ ∃ e, decode w = .error e := by
  constructor
  · intro h
    cases hd : decode w with
    | ok i =>
      have hmem := opcodeRow_mem_opcodeTable i
      exact absurd ((matchAndMaskSelectTheCommand w _ hmem).1 ⟨i, hd, rfl⟩) (h _ hmem)
    | error e => exact ⟨e, rfl⟩
  · rintro ⟨e, he⟩ r hr hm
    obtain ⟨i, hi, -⟩ := (matchAndMaskSelectTheCommand w r hr).2 hm
    cases he.symm.trans hi

theorem decodeGf_rejects_iff :
    (∃ e, decodeGf w = .error e) ↔
      6 ≤ (fieldFn w).toNat ∨ (fieldFn w = 0 ∧ (fieldRd w ≠ 0 ∨ fieldRs2 w ≠ 0)) ∨
        ((fieldFn w = 1 ∨ fieldFn w = 2) ∧ fieldRs2 w ≠ 0) := by
  simp only [← BitVec.toNat_inj]
  unfold decodeGf
  split
  case h_1 hfn => simp [hfn, ← BitVec.toNat_inj, imp_iff_not_or]
  case h_7 =>
    simp only [imp_false, Except.error.injEq, exists_eq', true_iff] at *
    omega
  all_goals next hfn => simp [hfn, ← BitVec.toNat_inj]

theorem decodeCc_rejects_iff :
    (∃ e, decodeCc w = .error e) ↔ 5 ≤ (fieldFn w).toNat ∨ ((fieldFn w).toNat ≤ 4 ∧ fieldRs2 w ≠ 0) := by
  unfold decodeCc
  split
  case h_6 =>
    simp only [imp_false, Except.error.injEq, exists_eq', true_iff] at *
    omega
  all_goals next hfn => simp [hfn]

theorem decodeMe_rejects_iff :
    (∃ e, decodeMe w = .error e) ↔
      5 ≤ (fieldFn w).toNat ∨ (1 ≤ (fieldFn w).toNat ∧ (fieldFn w).toNat ≤ 4 ∧ fieldRs2 w ≠ 0) := by
  unfold decodeMe
  split
  case h_6 =>
    simp only [imp_false, Except.error.injEq, exists_eq', true_iff] at *
    omega
  all_goals next hfn => simp [hfn]

/-- A word is of no family, or its family's decoder rejects it. -/
theorem decode_rejects_iff :
    (∃ e, decode w = .error e) ↔
      (fieldFam w = 0 ∨ 4 ≤ (fieldFam w).toNat) ∨
      (fieldFam w = 1 ∧ ∃ e, decodeGf w = .error e) ∨
      (fieldFam w = 2 ∧ ∃ e, decodeCc w = .error e) ∨
      (fieldFam w = 3 ∧ ∃ e, decodeMe w = .error e) := by
  simp only [← BitVec.toNat_inj]
  unfold decode
  split
  case h_4 =>
    simp only [imp_false, Except.error.injEq, exists_eq', true_iff, BitVec.ofNat_eq_ofNat, BitVec.toNat_ofNat] at *
    omega
  all_goals next hfam => simp [hfam]

end Sys2Proof
end

section
/-! The port: what a step does with a CMD, a WRX, an RDX and an RDC. The family `30_encoding.md` (R57 to R60, R65). -/

namespace Sys2Proof.Machine

variable {s : State} {w : CmdWord} {i : Instr} {rest : List Transaction}

/-! ### CMD (R60, R65) -/

/-- Settles O6: the words that match no row are those the decoder rejects, and each raises ILLEGAL_CMD. -/
theorem illegalWordsRaiseIllegalCmd : Obligations.IllegalWordsRaiseIllegalCmd := by
  refine ⟨fun w s rest hw hp hf => ?_, fun w => ?_⟩
  · obtain ⟨e, he⟩ := matches_no_row_iff.1 hw
    exact (step_of_pending hp).trans (performCmd_eq_next_iff.2 (.inr ⟨e, he, .inr ⟨hf, rfl⟩⟩))
  · rw [matches_no_row_iff, decode_rejects_iff, decodeGf_rejects_iff, decodeCc_rejects_iff, decodeMe_rejects_iff]
    simp only [and_or_left]
    refine iff_of_eq ?_
    ac_rfl

theorem step_of_cmd (hp : s.pending = .cmd w :: rest) (hd : decode w = .ok i) :
    step s = exec i { s with pending := rest } := by
  rw [step_of_pending hp, perform, performCmd, hd]

theorem withFetchWord_toNat (s : State) (w : CmdWord) : s.withFetchWord 16 w.toNat = issueNext (.cmd w) s := by
  have hword : tableWord 16 w.toNat = some w := by simp [tableWord, Nat.mod_eq_of_lt w.isLt, w.isLt]
  rw [State.withFetchWord, hword]

/-- Settles O8: a pending CMD is performed by its command, and `withFetchWord` puts a CMD in front of the host's list. -/
theorem stepRunsTheDecodedCommand : Obligations.StepRunsTheDecodedCommand := by
  refine ⟨fun s w i rest hp hd => step_of_cmd hp hd, fun s w i hd => ?_, fun s => step_of_idle⟩
  rw [withFetchWord_toNat]
  exact step_of_cmd (issueNext_pending s _) hd

/-! ### WRX, RDX and RDC (R57 to R59) -/

/-- Settles O9: by the rule of WRX and the laws of `readReg` and `writeReg`. -/
theorem wrxWritesOneRegister : Obligations.WrxWritesOneRegister := by
  intro s i v rest hp hv
  refine ⟨fun hf => ⟨writeReg { s with pending := rest } i v, ?_, readReg_writeReg_self _ i v,
    fun r hr => readReg_writeReg_of_ne _ v hr, rfl⟩, fun hf => ?_⟩
  · exact (step_of_pending hp).trans (performWrx_eq_next_iff.2 ⟨hv, .inr ⟨hf, rfl⟩⟩)
  · exact (step_of_pending hp).trans (performWrx_eq_next_iff.2 ⟨hv, .inl ⟨hf, rfl⟩⟩)

/-- Settles O10: an RDX is performed in every state. -/
theorem rdxReturnsTheRegister : Obligations.RdxReturnsTheRegister :=
  fun _ _ _ hp => step_of_pending hp

theorem step_of_rdc {c : CtlNum} (hp : s.pending = .rdc c :: rest) :
    step s = .next { s with pending := rest, returned := s.returned ++ [readControl s c] } :=
  step_of_pending hp

/-- The bits of STATUS (R25). -/
theorem toNat_statusWord (s : State) : (statusWord s).toNat =
    (if s.ready then 1 else 0) + (if s.faulted then 2 else 0) + (if s.corr then 4 else 0) := by
  unfold statusWord
  generalize s.ready = r, s.faulted = f, s.corr = c
  revert r f c
  decide

/-- Settles O11: the value is the content of the control register, which R40's width makes fit in XW bits. -/
theorem rdcReturnsTheControlRegister : Obligations.RdcReturnsTheControlRegister := by
  refine ⟨fun s c v rest hp hv => ?_, fun s c rest hp => ⟨readControl s c, readControl_lt s c, step_of_rdc hp⟩⟩
  obtain rfl : v = controlRegister s c := by
    rw [hv, ← toNat_statusWord]
    rfl
  refine ⟨fun h hfit => h.controlRegister_lt hfit c, fun hlt => ?_⟩
  have hread : readControl s c = controlRegister s c := if_pos hlt
  rw [step_of_rdc hp, hread]

end Sys2Proof.Machine
end

section
/-! The GF family: which faults its commands raise, and what each leaves when it completes. The family
`40_gf_field.md` (R80 to R89). -/

namespace Sys2Proof.Machine

variable {s : State} {i : Instr}

/-! ### The checks of a command that needs the field (R80, R81, R86) -/

section rules

variable {r : RegNum}

/-- With a field, a GF or CC command of an unfaulted unit goes on to its operands. -/
theorem fieldCommand_of_ready (hf : s.faulted = false) (hr : s.ready = true) (k : Result) :
    unlessFaulted s (needField i s k) = k :=
  (unlessFaulted_of_not_faulted hf _).trans (check_of_pos hr k)

theorem needExponent_of_valid (h : ValidExponent s.ndeg (signedReg s r)) (k : Int → Result) :
    needExponent i s r k = k (signedReg s r) :=
  check_of_pos h _

theorem needExponent_of_not_valid (h : ¬ValidExponent s.ndeg (signedReg s r)) (k : Int → Result) :
    needExponent i s r k = .next (takeFault s .badExponent (encode i)) :=
  check_of_neg h _

/-- Two exponent checks in a row raise one cause, whichever fails. -/
theorem needExponents_of_not_valid {r' : RegNum}
    (h : ¬(ValidExponent s.ndeg (signedReg s r) ∧ ValidExponent s.ndeg (signedReg s r'))) (k : Int → Int → Result) :
    (needExponent i s r fun a => needExponent i s r' (k a)) = .next (takeFault s .badExponent (encode i)) := by
  by_cases ha : ValidExponent s.ndeg (signedReg s r)
  · exact (needExponent_of_valid ha _).trans (needExponent_of_not_valid (fun hb => h ⟨ha, hb⟩) _)
  · exact needExponent_of_not_valid ha _

theorem not_validExponent_iff {n : Nat} {e : Int} : ¬ValidExponent n e ↔ e < -1 ∨ (2 : Int) ^ n - 2 < e := by
  rw [not_and_or, not_le, not_le, Nat.cast_pow, Nat.cast_ofNat]

theorem readTable_of_getElem? {j v : Nat} (h : s.ft[j]? = some v) (k : Nat → Result) : readTable s j k = k v := by
  simp only [readTable, h]

theorem needLog_of_logIn {v : Nat} {e : Int} (h : logIn s.ft v = some e) (k : Int → Result) :
    needLog i s v k = k e := by
  simp only [needLog, h]

/-- A lookup gives the lowest index of the value, minus one (R86). -/
theorem needLog_of_lowest {v j : Nat} (hj : s.ft[j]? = some v) (hlow : ∀ k < j, s.ft[k]? ≠ some v)
    (k : Int → Result) : needLog i s v k = k ((j : Int) - 1) :=
  needLog_of_logIn (logIn_eq_some_iff.2 ⟨j, rfl, hj, hlow⟩) k

theorem needLog_of_absent {v : Nat} (h : ∀ j : Nat, s.ft[j]? ≠ some v) (k : Int → Result) :
    needLog i s v k = .next (takeFault s .notInTable (encode i)) := by
  have hnone : logIn s.ft v = none := logIn_eq_none_iff.2 fun hv => (List.getElem?_of_mem hv).elim h
  simp only [needLog, hnone, raise]

end rules

/-- No CC command has an operand check: its causes are NO_FIELD, NOT_IN_TABLE and ENC_OVERFLOW (R100). -/
theorem causeCode_of_ccCommand {rd rs1 : RegNum} {c : Cause}
    (hi : i ∈ [Instr.ccEnc rd rs1, .ccQuo rd rs1, .ccSyn rd rs1, .ccLoc rd rs1, .ccDec rd rs1])
    (hc : c ∈ causesOf i) : causeCode c = 2 ∨ causeCode c = 7 ∨ causeCode c = 8 := by
  have hcauses : c = .noField ∨ c = .notInTable ∨ c = .encOverflow := by
    simp only [List.mem_cons, List.not_mem_nil, or_false] at hi
    obtain rfl | rfl | rfl | rfl | rfl := hi
    all_goals
      simp only [causesOf, List.mem_cons, List.not_mem_nil, or_false] at hc
      tauto
  obtain rfl | rfl | rfl := hcauses
  · exact .inl rfl
  · exact .inr (.inl rfl)
  · exact .inr (.inr rfl)

/-- Settles O17: READY is checked before any operand, and a fault has one of the command's causes. -/
theorem fieldCommandsNeedAField : Obligations.FieldCommandsNeedAField := by
  refine ⟨fun i s hn hf hr => exec_of_not_ready hn hf hr, fun i s t rd rs1 hi hf h ht => ?_⟩
  obtain ⟨hf', -⟩ | ⟨-, c, hc, rfl⟩ | ⟨-, hc⟩ := exec_outcomes h
  · simp [hf] at hf'
  · exact causeCode_of_ccCommand hi hc
  · simp [hc.faulted_eq, hf] at ht

/-! ### The commands of a unit with a field, by their checks (R81, R85 to R89) -/

section ready

variable {rd rs1 rs2 : RegNum} (hf : s.faulted = false) (hr : s.ready = true)
include hf hr

theorem exec_gfElem_of_not_valid (ha : ¬ValidExponent s.ndeg (signedReg s rs1)) :
    exec (.gfElem rd rs1) s = .next (takeFault s .badExponent (encode (.gfElem rd rs1))) :=
  (fieldCommand_of_ready hf hr _).trans (needExponent_of_not_valid ha _)

theorem exec_gfElem_of_valid (ha : ValidExponent s.ndeg (signedReg s rs1)) {v : Nat}
    (hv : s.ft[(signedReg s rs1 + 1).toNat]? = some v) : exec (.gfElem rd rs1) s = .next (writeReg s rd v) :=
  (fieldCommand_of_ready hf hr _).trans ((needExponent_of_valid ha _).trans (readTable_of_getElem? hv _))

theorem exec_gfLog_of_ge (hv : 2 ^ s.ndeg ≤ readReg s rs1) :
    exec (.gfLog rd rs1) s = .next (takeFault s .badElement (encode (.gfLog rd rs1))) :=
  (fieldCommand_of_ready hf hr _).trans (check_of_neg (not_lt.2 hv) _)

theorem exec_gfLog_of_lt (hv : readReg s rs1 < 2 ^ s.ndeg) :
    exec (.gfLog rd rs1) s = needLog (.gfLog rd rs1) s (readReg s rs1) fun e =>
      .next (writeReg s rd (sext s.cfg.xw e)) :=
  (fieldCommand_of_ready hf hr _).trans (check_of_pos hv _)

theorem exec_gfAdd_of_not_valid
    (h : ¬(ValidExponent s.ndeg (signedReg s rs1) ∧ ValidExponent s.ndeg (signedReg s rs2))) :
    exec (.gfAdd rd rs1 rs2) s = .next (takeFault s .badExponent (encode (.gfAdd rd rs1 rs2))) :=
  (fieldCommand_of_ready hf hr _).trans (needExponents_of_not_valid h _)

theorem exec_gfAdd_of_valid (ha : ValidExponent s.ndeg (signedReg s rs1))
    (hb : ValidExponent s.ndeg (signedReg s rs2)) {u v : Nat}
    (hu : s.ft[(signedReg s rs1 + 1).toNat]? = some u) (hv : s.ft[(signedReg s rs2 + 1).toNat]? = some v) :
    exec (.gfAdd rd rs1 rs2) s = needLog (.gfAdd rd rs1 rs2) s (u ^^^ v) fun e =>
      .next (writeReg s rd (sext s.cfg.xw e)) :=
  (fieldCommand_of_ready hf hr _).trans <| (needExponent_of_valid ha _).trans <| (needExponent_of_valid hb _).trans <|
    (readTable_of_getElem? hu _).trans (readTable_of_getElem? hv _)

theorem exec_gfMul_of_not_valid
    (h : ¬(ValidExponent s.ndeg (signedReg s rs1) ∧ ValidExponent s.ndeg (signedReg s rs2))) :
    exec (.gfMul rd rs1 rs2) s = .next (takeFault s .badExponent (encode (.gfMul rd rs1 rs2))) :=
  (fieldCommand_of_ready hf hr _).trans (needExponents_of_not_valid h _)

theorem exec_gfMul_of_valid (ha : ValidExponent s.ndeg (signedReg s rs1))
    (hb : ValidExponent s.ndeg (signedReg s rs2)) :
    exec (.gfMul rd rs1 rs2) s =
      .next (writeReg s rd (sext s.cfg.xw (mulExp s.ndeg (signedReg s rs1) (signedReg s rs2)))) :=
  (fieldCommand_of_ready hf hr _).trans ((needExponent_of_valid ha _).trans (needExponent_of_valid hb _))

theorem exec_gfPow_of_not_valid (ha : ¬ValidExponent s.ndeg (signedReg s rs1)) :
    exec (.gfPow rd rs1 rs2) s = .next (takeFault s .badExponent (encode (.gfPow rd rs1 rs2))) :=
  (fieldCommand_of_ready hf hr _).trans (needExponent_of_not_valid ha _)

theorem exec_gfPow_of_valid (ha : ValidExponent s.ndeg (signedReg s rs1)) :
    exec (.gfPow rd rs1 rs2) s =
      .next (writeReg s rd (sext s.cfg.xw (powExp s.ndeg (signedReg s rs1) (readReg s rs2)))) :=
  (fieldCommand_of_ready hf hr _).trans (needExponent_of_valid ha _)

end ready

/-- Settles O33: each exponent operand of the four commands is checked, and both checks of GF.ADD and GF.MUL raise the
same cause. -/
theorem exponentsOutOfRangeFault : Obligations.ExponentsOutOfRangeFault := by
  refine ⟨fun rd rs1 rs2 s hf hr h i hi => ?_, fun rd rs1 rs2 s hf hr h i hi => ?_, writeExponent_eq⟩
  · have ha : ¬ValidExponent s.ndeg (signedReg s rs1) := not_validExponent_iff.2 h
    simp only [List.mem_cons, List.not_mem_nil, or_false] at hi
    obtain rfl | rfl | rfl | rfl := hi
    · exact exec_gfElem_of_not_valid hf hr ha
    · exact exec_gfAdd_of_not_valid hf hr fun h => ha h.left
    · exact exec_gfMul_of_not_valid hf hr fun h => ha h.left
    · exact exec_gfPow_of_not_valid hf hr ha
  · have hb : ¬ValidExponent s.ndeg (signedReg s rs2) := not_validExponent_iff.2 h
    simp only [List.mem_cons, List.not_mem_nil, or_false] at hi
    obtain rfl | rfl := hi
    · exact exec_gfAdd_of_not_valid hf hr fun h => hb h.right
    · exact exec_gfMul_of_not_valid hf hr fun h => hb h.right

/-! ### GF.INIT (R82, R83) -/

/-- The step of the construction, as R82 writes it: the shift is a doubling. -/
theorem nextElement_eq (g m e : Nat) :
    nextElement g m e = if e.testBit (m - 1) then (2 * e) % 2 ^ m ^^^ (g % 2 ^ m) else (2 * e) % 2 ^ m := by
  rw [nextElement, Nat.shiftLeft_eq, pow_one, mul_comm]

theorem elementAfter_succ (g m k : Nat) : elementAfter g m (k + 1) = nextElement g m (elementAfter g m k) :=
  Function.iterate_succ_apply' ..

/-- The entry of exponent 0 is 1: a degree of at least 1 gives the table room for it. -/
theorem getElem?_buildTable_one {m : Nat} (hm : 1 ≤ m) (g : Nat) : (buildTable g m)[1]? = some 1 := by
  have hp := Nat.one_lt_two_pow (n := m) (by omega)
  exact getElem?_buildTable_succ g m 0 (by omega)

/-- After entry 0, each entry is made from the last by one step of the construction. -/
theorem buildTable_next {g m k : Nat} (h1 : 1 ≤ k) (h2 : k ≤ 2 ^ m - 2) :
    ∃ e, (buildTable g m)[k]? = some e ∧ (buildTable g m)[k + 1]? = some (nextElement g m e) := by
  obtain ⟨j, rfl⟩ := Nat.exists_eq_add_of_le' h1
  refine ⟨elementAfter g m j, getElem?_buildTable_succ g m j (by omega), ?_⟩
  rw [← elementAfter_succ]
  exact getElem?_buildTable_succ g m (j + 1) (by omega)

/-- Settles O30: the two checks in their order, and the table entry by entry. -/
theorem gfInitBuildsTheField : Obligations.GfInitBuildsTheField := by
  intro rs1 s _ hf
  refine ⟨Laws.RowMatches.gfInit rs1, fun hr => ?_, fun hr hdeg => ?_, fun hr h1 h2 => ?_⟩
  · exact (unlessFaulted_of_not_faulted hf _).trans (check_of_neg (by simp [hr]) _)
  · refine (unlessFaulted_of_not_faulted hf _).trans ((check_of_pos hr _).trans (check_of_neg ?_ _))
    rw [polynomial_eq]
    omega
  · have hm : 1 ≤ len (readReg s rs1) - 1 := by unfold deg at h1; omega
    refine ⟨installField s (readReg s rs1), len (readReg s rs1) - 1, ?_, ?_, rfl, length_buildTable .., rfl,
      getElem?_buildTable_one hm _, fun k hk1 hk2 => ?_⟩
    · exact (unlessFaulted_of_not_faulted hf _).trans ((check_of_pos hr _).trans (check_of_pos ⟨h1, h2⟩ _))
    · unfold deg
      omega
    · obtain ⟨e, he, hnext⟩ := buildTable_next (g := readReg s rs1) hk1 hk2
      exact ⟨e, he, by rw [← nextElement_eq]; exact hnext⟩

/-! ### GF.ELEM, GF.LOG and GF.ADD: reads of the table (R85 to R87) -/

section table

variable (h : s.Inv) (hr : s.ready = true)
include h hr

theorem State.Inv.getElem?_ft_zero : s.ft[0]? = some 0 := by
  obtain ⟨-, -, -, hft⟩ := h.fieldRecord_of_ready hr
  rw [hft, getElem?_buildTable_zero]

theorem State.Inv.getElem?_ft_one : s.ft[1]? = some 1 := by
  obtain ⟨hn, -, -, hft⟩ := h.fieldRecord_of_ready hr
  rw [hft, getElem?_buildTable_one hn]

/-- The table holds an entry for every valid exponent, an n-bit element (R28). -/
theorem State.Inv.exists_tableEntry {e : Int} (he : ValidExponent s.ndeg e) :
    ∃ v, s.ft[(e + 1).toNat]? = some v ∧ v < 2 ^ s.ndeg := by
  obtain ⟨hlen, hentry⟩ : s.ft.length = 2 ^ s.ndeg ∧ ∀ v ∈ s.ft, v < 2 ^ s.ndeg := by
    simpa [State.TableWf, hr] using h.tableWf
  obtain ⟨hlo, hhi⟩ := he
  have hlt : (e + 1).toNat < s.ft.length := by omega
  exact ⟨_, List.getElem?_eq_getElem hlt, hentry _ (List.getElem_mem hlt)⟩

/-- The lookup of 0 gives -1, whatever the generator. -/
theorem State.Inv.needLog_zero (k : Int → Result) : needLog i s 0 k = k (-1) :=
  needLog_of_lowest (h.getElem?_ft_zero hr) (by simp) k

/-- The lookup of 1 gives 0: the one entry below it is 0. -/
theorem State.Inv.needLog_one (k : Int → Result) : needLog i s 1 k = k 0 :=
  needLog_of_lowest (h.getElem?_ft_one hr) (by simp [h.getElem?_ft_zero hr]) k

end table

/-- Settles O34: a valid exponent has its entry, and the three corner exponents read the entries 0, 1 and the last. -/
theorem gfElemReadsTheElement : Obligations.GfElemReadsTheElement := by
  intro rd rs1 s h hf
  refine ⟨Laws.RowMatches.gfElem rd rs1, exec_of_not_ready rfl hf, exec_gfElem_of_not_valid hf, fun hr ha => ?_⟩
  obtain ⟨v, hv, hlt⟩ := h.exists_tableEntry hr ha
  refine ⟨v, hv, hlt, exec_gfElem_of_valid hf hr ha hv, fun he => ?_, fun he => ?_, fun he => ?_⟩
  · rw [he] at hv
    exact Option.some_inj.1 (hv.symm.trans (h.getElem?_ft_zero hr))
  · rw [he] at hv
    exact Option.some_inj.1 (hv.symm.trans (h.getElem?_ft_one hr))
  · have hlast : (signedReg s rs1 + 1).toNat = s.ft.length - 1 := by
      have hp := Nat.one_le_two_pow (n := s.ndeg)
      rw [h.length_ft hr, he]
      zify [hp] at hp ⊢
      omega
    rw [List.getLast?_eq_getElem?, ← hlast, hv]

/-- Settles O35: the lookup's rules on the value of the source register; 0 and 1 stand in the entries 0 and 1. -/
theorem gfLogFindsTheLowestIndex : Obligations.GfLogFindsTheLowestIndex := by
  intro rd rs1 s h hf
  refine ⟨Laws.RowMatches.gfLog rd rs1, exec_of_not_ready rfl hf, exec_gfLog_of_ge hf, fun hr hv => ?_⟩
  rw [exec_gfLog_of_lt hf hr hv]
  refine ⟨fun j hj hlow => needLog_of_lowest hj hlow _, fun habs => needLog_of_absent habs _, fun h0 => ?_,
    fun h1 => ?_⟩
  · rw [h0, h.needLog_zero hr, sext_neg_one]
  · rw [h1, h.needLog_one hr]
    rfl

/-- Settles O36: the lookup's rules on the XOR of the two entries; equal exponents read one entry, whose XOR with itself
is 0. -/
theorem gfAddLooksUpTheXor : Obligations.GfAddLooksUpTheXor := by
  intro rd rs1 rs2 s h hf
  refine ⟨Laws.RowMatches.gfAdd rd rs1 rs2, exec_of_not_ready rfl hf, exec_gfAdd_of_not_valid hf, fun hr ha hb => ?_⟩
  obtain ⟨u, hu, -⟩ := h.exists_tableEntry hr ha
  obtain ⟨v, hv, -⟩ := h.exists_tableEntry hr hb
  refine ⟨u, v, hu, hv, ?_⟩
  rw [exec_gfAdd_of_valid hf hr ha hb hu hv]
  refine ⟨fun j hj hlow => needLog_of_lowest hj hlow _, fun habs => needLog_of_absent habs _, fun heq => ?_⟩
  obtain rfl : u = v := Option.some_inj.1 (hu.symm.trans (heq ▸ hv))
  rw [Nat.xor_self, h.needLog_zero hr, sext_neg_one]

/-! ### GF.MUL and GF.POW: arithmetic of exponents (R88, R89) -/

theorem sext_natCast (xw r : Nat) : sext xw r = r := by
  zify
  exact coe_sext_of_nonneg xw (Int.natCast_nonneg r)

theorem mulExp_of_neg_one {n : Nat} {a b : Int} (h : a = -1 ∨ b = -1) : mulExp n a b = -1 := if_pos h

theorem mulExp_of_ne {n : Nat} {a b : Int} (ha : a ≠ -1) (hb : b ≠ -1) :
    mulExp n a b = (a + b) % ((2 : Int) ^ n - 1) := by
  rw [mulExp, if_neg (not_or.2 ⟨ha, hb⟩), Nat.cast_pow, Nat.cast_ofNat]

theorem powExp_zero (n : Nat) (a : Int) : powExp n a 0 = 0 := if_pos rfl

theorem powExp_of_fixed {n p : Nat} {a : Int} (hp : p ≠ 0) (ha : a = -1 ∨ a = 0) : powExp n a p = a := by
  rw [powExp, if_neg hp, if_pos ha]

theorem powExp_of_pos {n p : Nat} {a : Int} (hp : p ≠ 0) (ha : 1 ≤ a) :
    powExp n a p = (a * p) % ((2 : Int) ^ n - 1) := by
  rw [powExp, if_neg hp, if_neg (by omega), Nat.cast_pow, Nat.cast_ofNat]

/-- A representative modulo `2 ^ n - 1` is a natural number of at most `2 ^ n - 2`. -/
theorem exists_natCast_eq_emod {n : Nat} (hn : 1 ≤ n) (k : Int) :
    ∃ r : Nat, (r : Int) = k % ((2 : Int) ^ n - 1) ∧ r ≤ 2 ^ n - 2 := by
  have hp : (1 : Int) < 2 ^ n := one_lt_pow₀ (by decide) (by omega)
  have hlo := Int.emod_nonneg k (b := (2 : Int) ^ n - 1) (by omega)
  have hhi := Int.emod_lt_of_pos k (b := (2 : Int) ^ n - 1) (by omega)
  obtain ⟨r, hr⟩ := Int.eq_ofNat_of_zero_le hlo
  refine ⟨r, hr.symm, Nat.le_sub_of_add_le ?_⟩
  zify
  omega

/-- The loop of R89 by induction on its length: each multiplication adds the base once more. -/
theorem iterate_mulExp {n : Nat} {a : Int} (h0 : 0 ≤ a) (ha : ValidExponent n a) (k : Nat) :
    (fun e => mulExp n e a)^[k] a = (a * (k + 1 : Nat)) % ((2 : Int) ^ n - 1) := by
  obtain ⟨-, hhi⟩ := ha
  push_cast at hhi
  induction k with
  | zero => simp [Int.emod_eq_of_lt h0 (show a < (2 : Int) ^ n - 1 by omega)]
  | succ k ih =>
    have hlo := Int.emod_nonneg (a * (k + 1 : Nat)) (b := (2 : Int) ^ n - 1) (by omega)
    rw [Function.iterate_succ_apply', ih, mulExp_of_ne (by omega) (by omega), Int.emod_add_emod]
    push_cast
    ring_nf

/-- Settles O37: by the two cases of MUL. -/
theorem gfMulAddsExponents : Obligations.GfMulAddsExponents := by
  intro rd rs1 rs2 s h hf
  refine ⟨Laws.RowMatches.gfMul rd rs1 rs2, exec_of_not_ready rfl hf, exec_gfMul_of_not_valid hf, fun hr ha hb => ?_⟩
  rw [exec_gfMul_of_valid hf hr ha hb]
  refine ⟨fun hone => ?_, fun hna hnb => ?_⟩
  · rw [mulExp_of_neg_one hone, sext_neg_one]
  · obtain ⟨r, hmod, hle⟩ := exists_natCast_eq_emod (h.one_le_ndeg hr) (signedReg s rs1 + signedReg s rs2)
    exact ⟨r, hmod, hle, by rw [mulExp_of_ne hna hnb, ← hmod, sext_natCast]⟩

/-- Settles O38: by the cases of the power, and the loop's closed form. -/
theorem gfPowRepeatsMultiplication : Obligations.GfPowRepeatsMultiplication := by
  intro rd rs1 rs2 s h hf
  refine ⟨Laws.RowMatches.gfPow rd rs1 rs2, exec_of_not_ready rfl hf, exec_gfPow_of_not_valid hf, fun hr ha => ?_⟩
  rw [exec_gfPow_of_valid hf hr ha]
  refine ⟨fun hp => ?_, fun hp hone => ?_, fun hp hzero => ?_, fun hp hpos => ?_⟩
  · rw [hp, powExp_zero]
    rfl
  · rw [powExp_of_fixed hp (.inl hone), hone, sext_neg_one]
  · rw [powExp_of_fixed hp (.inr hzero), hzero]
    rfl
  · obtain ⟨r, hmod, -⟩ := exists_natCast_eq_emod (h.one_le_ndeg hr) (signedReg s rs1 * readReg s rs2)
    refine ⟨r, ?_, hmod, by rw [powExp_of_pos hp hpos, ← hmod, sext_natCast]⟩
    rw [hmod, iterate_mulExp (by omega) ha, Nat.sub_add_cancel (Nat.one_le_iff_ne_zero.2 hp)]

end Sys2Proof.Machine
end

section
/-! Arithmetic of polynomials over GF(2): lengths under XOR and shift, the product, the division and its uniqueness
(R11, R14, R15). -/

namespace Sys2Proof.Machine

/-! ### Lengths under XOR and shift (R11) -/

theorem exists_len_eq_succ {v : Nat} (hv : v ≠ 0) : ∃ m, len v = m + 1 :=
  Nat.exists_eq_succ_of_ne_zero (len_pos_iff.2 hv).ne'

theorem len_eq_succ_iff {v m : Nat} : len v = m + 1 ↔ 2 ^ m ≤ v ∧ v < 2 ^ (m + 1) := by
  have hle : len v ≤ m + 1 ↔ v < 2 ^ (m + 1) := len_le_iff
  have hlt : len v ≤ m ↔ v < 2 ^ m := len_le_iff
  omega

theorem testBit_of_len {v m : Nat} (h : len v = m + 1) : v.testBit m = true := by
  obtain ⟨hlo, hhi⟩ := len_eq_succ_iff.1 h
  exact Nat.testBit_of_two_pow_le_and_two_pow_add_one_gt hlo hhi

theorem testBit_iff_len_eq {v m : Nat} (h : len v ≤ m + 1) : v.testBit m = true ↔ len v = m + 1 := by
  refine ⟨fun hbit => le_antisymm h (not_lt.1 fun hlt => ?_), testBit_of_len⟩
  rw [Nat.testBit_lt_two_pow (len_le_iff.1 (Nat.le_of_lt_succ hlt))] at hbit
  cases hbit

theorem len_xor_le {a b k : Nat} (ha : len a ≤ k) (hb : len b ≤ k) : len (a ^^^ b) ≤ k :=
  len_le_iff.2 (Nat.xor_lt_two_pow (len_le_iff.1 ha) (len_le_iff.1 hb))

/-- The leading bit of the longer operand stays. -/
theorem len_xor_of_lt {a b : Nat} (h : len b < len a) : len (a ^^^ b) = len a := by
  refine le_antisymm (len_xor_le le_rfl h.le) (not_lt.1 fun hlt => ?_)
  have hle : len (a ^^^ b ^^^ b) ≤ len a - 1 := len_xor_le (by omega) (by omega)
  rw [Nat.xor_xor_cancel_right] at hle
  omega

/-- The leading bits of operands of one length cancel. -/
theorem len_xor_lt_of_eq {a b : Nat} (h : len a = len b) (hb : b ≠ 0) : len (a ^^^ b) < len b := by
  obtain ⟨m, hm⟩ := exists_len_eq_succ hb
  refine lt_of_le_of_ne (len_xor_le h.le le_rfl) fun heq => ?_
  have hbit := testBit_of_len (heq.trans hm)
  simp [testBit_of_len (h.trans hm), testBit_of_len hm] at hbit

theorem len_shiftLeft {v : Nat} (hv : v ≠ 0) (d : Nat) : len (v <<< d) = len v + d := by
  obtain ⟨m, hm⟩ := exists_len_eq_succ hv
  obtain ⟨hlo, hhi⟩ := len_eq_succ_iff.1 hm
  rw [hm, Nat.add_right_comm, len_eq_succ_iff, Nat.shiftLeft_eq, Nat.pow_add, Nat.add_right_comm, Nat.pow_add]
  exact ⟨Nat.mul_le_mul_right _ hlo, Nat.mul_lt_mul_of_pos_right hhi (Nat.two_pow_pos d)⟩

/-! ### The product (R14) -/

/-- What the `k` low bits of `b` contribute to the product. -/
def pmulLow (a b : Nat) : Nat → Nat
  | 0 => 0
  | k + 1 => pmulLow a b k ^^^ (if b.testBit k then a <<< k else 0)

theorem pmul_eq_pmulLow (a b : Nat) : pmul a b = pmulLow a b (len b) := by
  unfold pmul
  induction len b with
  | zero => rfl
  | succ k ih =>
    rw [List.range_succ, List.foldl_append, ih, pmulLow]
    split
    · next hbit => simp [hbit]
    · next hbit => simp [hbit]

theorem pmulLow_xor (a a' b k : Nat) : pmulLow (a ^^^ a') b k = pmulLow a b k ^^^ pmulLow a' b k := by
  induction k with
  | zero => simp [pmulLow]
  | succ k ih =>
    rw [pmulLow, pmulLow, pmulLow, ih]
    split
    · rw [Nat.shiftLeft_xor_distrib]
      ac_rfl
    · simp

theorem pmulLow_shiftLeft (a b d k : Nat) : pmulLow (a <<< d) b k = pmulLow a b k <<< d := by
  induction k with
  | zero => simp [pmulLow]
  | succ k ih =>
    rw [pmulLow, pmulLow, ih, Nat.shiftLeft_xor_distrib]
    split
    · rw [← Nat.shiftLeft_add, ← Nat.shiftLeft_add, Nat.add_comm]
    · simp

theorem testBit_pmulLow_one (b k j : Nat) : (pmulLow 1 b k).testBit j = (decide (j < k) && b.testBit j) := by
  induction k with
  | zero => simp [pmulLow]
  | succ k ih =>
    have hterm : (if b.testBit k then 1 <<< k else 0).testBit j = (decide (k = j) && b.testBit k) := by
      split
      · next hbit => simp [Nat.one_shiftLeft, hbit, Nat.testBit_two_pow]
      · next hbit => simp [hbit]
    rw [pmulLow, Nat.testBit_xor, ih, hterm]
    obtain h | rfl | h := lt_trichotomy j k
    · simp [h, h.ne', h.trans (Nat.lt_succ_self k)]
    · simp
    · simp [h.ne, h.not_gt, Nat.not_lt.2 (Nat.succ_le_of_lt h)]

theorem len_pmulLow_le {a m : Nat} (h : len a = m + 1) (b k : Nat) : len (pmulLow a b k) ≤ m + k := by
  induction k with
  | zero => simp [pmulLow]
  | succ k ih =>
    rw [pmulLow]
    refine len_xor_le (by omega) ?_
    split
    · rw [len_shiftLeft (len_pos_iff.1 (by omega))]
      omega
    · simp

theorem pmul_xor (a a' g : Nat) : pmul (a ^^^ a') g = pmul a g ^^^ pmul a' g := by
  simp only [pmul_eq_pmulLow, pmulLow_xor]

theorem pmul_shiftLeft (a d g : Nat) : pmul (a <<< d) g = pmul a g <<< d := by
  simp only [pmul_eq_pmulLow, pmulLow_shiftLeft]

@[simp] theorem zero_pmul (g : Nat) : pmul 0 g = 0 := by
  have h := pmul_xor 0 0 g
  rwa [Nat.xor_self, Nat.xor_self] at h

@[simp] theorem one_pmul (g : Nat) : pmul 1 g = g := by
  refine Nat.eq_of_testBit_eq fun j => ?_
  rw [pmul_eq_pmulLow, testBit_pmulLow_one]
  by_cases h : j < len g
  · simp [h]
  · have hhigh : g.testBit j = false := Nat.testBit_lt_two_pow (len_le_iff.1 (not_lt.1 h))
    simp [hhigh]

/-- The leading terms cannot cancel: degrees add up. -/
theorem len_pmul {a g n : Nat} (ha : a ≠ 0) (hg : len g = n + 1) : len (pmul a g) = len a + n := by
  obtain ⟨m, hm⟩ := exists_len_eq_succ ha
  have hle := len_pmulLow_le hm g n
  have hlead := len_shiftLeft ha n
  rw [pmul_eq_pmulLow, hg, pmulLow, if_pos (testBit_of_len hg), Nat.xor_comm, len_xor_of_lt (by omega), hlead]

/-! ### The division (R15) -/

theorem or_one_shiftLeft {q d : Nat} (h : q.testBit d = false) : q ||| 1 <<< d = q ^^^ 1 <<< d := by
  refine Nat.eq_of_testBit_eq fun j => ?_
  obtain rfl | hne := eq_or_ne d j
  · simp [h]
  · have hbit : (1 <<< d).testBit j = false := by simp [Nat.one_shiftLeft, hne]
    simp [hbit]

/-- The loop keeps `pmul q g ^^^ r`: each round shortens the remainder, so it sets a quotient bit no round has set. -/
theorem pdivLoop_spec {g : Nat} (hg : g ≠ 0) (fuel q r : Nat) (hr : len r ≤ fuel)
    (hq : ∀ i, i + len g ≤ len r → q.testBit i = false) :
    len (pdivLoop g fuel q r).2 < len g ∧
      pmul (pdivLoop g fuel q r).1 g ^^^ (pdivLoop g fuel q r).2 = pmul q g ^^^ r := by
  have hpos := len_pos_iff.2 hg
  induction fuel generalizing q r with
  | zero => exact ⟨by simp only [pdivLoop]; omega, rfl⟩
  | succ fuel ih =>
    unfold pdivLoop
    split
    · next hle =>
      generalize hd : len r - len g = d
      have hlen : len (g <<< d) = len r := by rw [len_shiftLeft hg]; omega
      have hlt := len_xor_lt_of_eq hlen (len_pos_iff.1 (by omega))
      rw [Nat.xor_comm] at hlt
      rw [or_one_shiftLeft (hq d (by omega))]
      obtain ⟨hrem, hsum⟩ := ih (q ^^^ 1 <<< d) (r ^^^ g <<< d) (by omega) fun i hi => by
        simp [hq i (by omega), Nat.one_shiftLeft, show d ≠ i by omega]
      refine ⟨hrem, hsum.trans ?_⟩
      rw [pmul_xor, pmul_shiftLeft, one_pmul, Nat.xor_comm r, ← Nat.xor_assoc, Nat.xor_xor_cancel_right]
    · next hlt => exact ⟨not_le.1 hlt, rfl⟩

section division

variable {g : Nat} (hg : g ≠ 0)
include hg

theorem len_pmod_lt (a : Nat) : len (pmod a g) < len g :=
  (pdivLoop_spec hg (len a) 0 a le_rfl (by simp)).left

theorem pmul_pquo_xor_pmod (a : Nat) : pmul (pquo a g) g ^^^ pmod a g = a := by
  have h := (pdivLoop_spec hg (len a) 0 a le_rfl (by simp)).right
  rwa [zero_pmul, Nat.zero_xor] at h

end division

/-- Quotient and remainder are unique: a multiple of `g` other than 0 is no shorter than `g`, so two quotients differ by
0. -/
theorem pdiv_unique {a g q r : Nat} (hr : len r < len g) (ha : pmul q g ^^^ r = a) : pquo a g = q ∧ pmod a g = r := by
  have hg : g ≠ 0 := len_pos_iff.1 (by omega)
  obtain ⟨n, hn⟩ := exists_len_eq_succ hg
  have hrem := len_pmod_lt hg a
  have hdiff : pmul (pquo a g ^^^ q) g = pmod a g ^^^ r := by
    rw [pmul_xor, ← Nat.xor_eq_zero_iff]
    calc pmul (pquo a g) g ^^^ pmul q g ^^^ (pmod a g ^^^ r)
      _ = (pmul (pquo a g) g ^^^ pmod a g) ^^^ (pmul q g ^^^ r) := by ac_rfl
      _ = 0 := by rw [pmul_pquo_xor_pmod hg, ha, Nat.xor_self]
  have hquo : pquo a g = q := by
    rw [← Nat.xor_eq_zero_iff]
    by_contra hne
    have hlen := len_pmul hne hn
    have hshort : len (pmod a g ^^^ r) ≤ n := len_xor_le (by omega) (by omega)
    rw [hdiff] at hlen
    have hpos := len_pos_iff.2 hne
    omega
  rw [hquo, Nat.xor_self, zero_pmul, eq_comm, Nat.xor_eq_zero_iff] at hdiff
  exact ⟨hquo, hdiff⟩

/-! ### What the division gives, by its uniqueness -/

/-- The degenerate division (R109): a dividend shorter than the divisor is the remainder. -/
theorem pdiv_of_len_lt {a g : Nat} (h : len a < len g) : pquo a g = 0 ∧ pmod a g = a :=
  pdiv_unique h (by simp)

section division

variable {g : Nat} (hg : g ≠ 0)
include hg

/-- A codeword leaves no remainder. -/
theorem pmod_pmul (w : Nat) : pmod (pmul w g) g = 0 := by
  exact (pdiv_unique (q := w) (r := 0) (len_pos_iff.2 hg) (Nat.xor_zero _)).right

theorem pmod_self : pmod g g = 0 := by
  have h := pmod_pmul hg 1
  rwa [one_pmul] at h

theorem pmod_xor (a b : Nat) : pmod (a ^^^ b) g = pmod a g ^^^ pmod b g := by
  have ha := len_pmod_lt hg a
  have hb := len_pmod_lt hg b
  have hlen : len (pmod a g ^^^ pmod b g) ≤ len g - 1 := len_xor_le (by omega) (by omega)
  refine (pdiv_unique (q := pquo a g ^^^ pquo b g) (by omega) ?_).right
  calc pmul (pquo a g ^^^ pquo b g) g ^^^ (pmod a g ^^^ pmod b g)
    _ = (pmul (pquo a g) g ^^^ pmod a g) ^^^ (pmul (pquo b g) g ^^^ pmod b g) := by
      rw [pmul_xor]
      ac_rfl
    _ = a ^^^ b := by rw [pmul_pquo_xor_pmod hg, pmul_pquo_xor_pmod hg]

/-- The syndrome of a codeword with errors is the remainder of the errors. -/
theorem pmod_pmul_xor (w v : Nat) : pmod (pmul w g ^^^ v) g = pmod v g := by
  rw [pmod_xor hg, pmod_pmul hg, Nat.zero_xor]

/-- Dividing before a shift does not change the remainder after it. -/
theorem pmod_shiftLeft_pmod (a d : Nat) : pmod (pmod a g <<< d) g = pmod (a <<< d) g := by
  have h : a <<< d = pmul (pquo a g <<< d) g ^^^ pmod a g <<< d := by
    rw [pmul_shiftLeft, ← Nat.shiftLeft_xor_distrib, pmul_pquo_xor_pmod hg]
  rw [h, pmod_pmul_xor hg]

/-- With equal lengths the loop runs once (R109). -/
theorem pmod_of_len_eq {a : Nat} (h : len a = len g) : pmod a g = a ^^^ g := by
  refine (pdiv_unique (q := 1) (len_xor_lt_of_eq h hg) ?_).right
  rw [one_pmul, Nat.xor_comm a, Nat.xor_xor_cancel_left]

end division

/-- The quotient has the dividend's length less the divisor's degree. -/
theorem len_pquo {a g n : Nat} (hg : len g = n + 1) (ha : n < len a) : len (pquo a g) = len a - n := by
  have hne : g ≠ 0 := len_pos_iff.1 (by omega)
  have hrem := len_pmod_lt hne a
  have hsum := pmul_pquo_xor_pmod hne a
  have hquo : pquo a g ≠ 0 := by
    intro h
    rw [h, zero_pmul, Nat.zero_xor] at hsum
    rw [hsum] at hrem
    omega
  have hpos := len_pos_iff.2 hquo
  have hlen := len_pmul hquo hg
  have hsame := len_xor_of_lt (a := pmul (pquo a g) g) (b := pmod a g) (by omega)
  rw [hsum] at hsame
  omega

theorem eq_one_of_len_eq_one {v : Nat} (h : len v = 1) : v = 1 := by
  obtain ⟨hlo, hhi⟩ := len_eq_succ_iff.1 h
  omega

/-! ### The powers of x in the field table (R84) -/

/-- One step of the construction of R82 multiplies by x and reduces. -/
theorem nextElement_eq_pmod {g m e : Nat} (hg : len g = m + 1) (hm : 1 ≤ m) (he : e < 2 ^ m) :
    nextElement g m e = pmod (e <<< 1) g := by
  have hne : g ≠ 0 := len_pos_iff.1 (by omega)
  obtain ⟨d, rfl⟩ := Nat.exists_eq_add_of_le' hm
  have hle := len_le_iff.2 he
  rw [nextElement, Nat.add_sub_cancel]
  split
  · next hbit =>
    have hlen : len (e <<< 1) = len g := by
      rw [len_shiftLeft (by rintro rfl; simp at hbit), (testBit_iff_len_eq hle).1 hbit, hg]
    have hlt := len_xor_lt_of_eq hlen hne
    rw [pmod_of_len_eq hne hlen, ← Nat.xor_mod_two_pow, Nat.mod_eq_of_lt (len_le_iff.1 (by omega))]
  · next hbit =>
    have hlen : e <<< 1 < 2 ^ (d + 1) := by
      rw [testBit_iff_len_eq hle] at hbit
      exact Nat.shiftLeft_lt (len_le_iff.1 (by omega))
    rw [Nat.mod_eq_of_lt hlen, (pdiv_of_len_lt (by rw [hg]; exact Nat.lt_succ_of_le (len_le_iff.2 hlen))).right]

/-- The element of exponent `k` is x^k reduced by the generator. -/
theorem elementAfter_eq_pmod {g m : Nat} (hg : len g = m + 1) (hm : 1 ≤ m) (k : Nat) :
    elementAfter g m k = pmod (1 <<< k) g := by
  have hne : g ≠ 0 := len_pos_iff.1 (by omega)
  have hone : 1 < 2 ^ m := Nat.one_lt_two_pow (by omega)
  induction k with
  | zero => exact (pdiv_of_len_lt (by rw [hg]; exact Nat.lt_succ_of_le (len_le_iff.2 hone))).right.symm
  | succ k ih =>
    have hlt : elementAfter g m k < 2 ^ m := iterate_nextElement_lt g m 1 k hone
    rw [elementAfter_succ, nextElement_eq_pmod hg hm hlt, ih, pmod_shiftLeft_pmod hne, ← Nat.shiftLeft_add]

end Sys2Proof.Machine
end

section
/-! The CC family: encoder, divider, error locator and decoder (R100 to R108). The family `41_cyclic_codec.md`. -/

namespace Sys2Proof.Machine

variable {s : State}

/-! ### The commands of a unit with a field, by their checks (R101 to R105) -/

section ready

variable {rd rs1 : RegNum} (hf : s.faulted = false) (hr : s.ready = true)
include hf hr

theorem exec_ccEnc_of_lt (hlen : s.cfg.xw < len (pmul (readReg s rs1) s.gen)) :
    exec (.ccEnc rd rs1) s = .next (takeFault s .encOverflow (encode (.ccEnc rd rs1))) :=
  (fieldCommand_of_ready hf hr _).trans (check_of_neg (not_le.2 hlen) _)

theorem exec_ccEnc_of_le (hlen : len (pmul (readReg s rs1) s.gen) ≤ s.cfg.xw) :
    exec (.ccEnc rd rs1) s = .next (writeReg s rd (pmul (readReg s rs1) s.gen)) :=
  (fieldCommand_of_ready hf hr _).trans (check_of_pos hlen _)

theorem exec_ccQuo_of_ready : exec (.ccQuo rd rs1) s = .next (writeReg s rd (pquo (readReg s rs1) s.gen)) :=
  fieldCommand_of_ready hf hr _

theorem exec_ccSyn_of_ready : exec (.ccSyn rd rs1) s = .next (writeReg s rd (pmod (readReg s rs1) s.gen)) :=
  fieldCommand_of_ready hf hr _

theorem exec_ccLoc_of_ready : exec (.ccLoc rd rs1) s =
    needLog (.ccLoc rd rs1) s (pmod (readReg s rs1) s.gen) fun e => .next (writeReg s rd (sext s.cfg.xw e)) :=
  fieldCommand_of_ready hf hr _

theorem exec_ccDec_of_pmod_eq_zero (hsyn : pmod (readReg s rs1) s.gen = 0) :
    exec (.ccDec rd rs1) s = .next (writeCorr (writeReg s rd (pquo (readReg s rs1) s.gen)) false) :=
  (fieldCommand_of_ready hf hr _).trans (if_pos hsyn)

theorem exec_ccDec_of_pmod_ne_zero (hsyn : pmod (readReg s rs1) s.gen ≠ 0) : exec (.ccDec rd rs1) s =
    needLog (.ccDec rd rs1) s (pmod (readReg s rs1) s.gen) fun e =>
      .next (writeCorr (writeReg s rd (pquo (readReg s rs1 ^^^ 1 <<< e.toNat) s.gen)) true) :=
  (fieldCommand_of_ready hf hr _).trans (if_neg hsyn)

end ready

/-! ### The generator and the table of a unit with a field -/

section field

variable (h : s.Inv) (hr : s.ready = true)
include h hr

theorem State.Inv.len_gen : len s.gen = s.ndeg + 1 := by
  obtain ⟨-, -, hlen, -⟩ := h.fieldRecord_of_ready hr
  exact hlen

theorem State.Inv.gen_ne_zero : s.gen ≠ 0 := len_pos_iff.1 (h.len_gen_pos hr)

theorem State.Inv.pmod_gen_lt (a : Nat) : pmod a s.gen < 2 ^ s.ndeg := by
  have hlt := len_pmod_lt (h.gen_ne_zero hr) a
  have hlen := h.len_gen hr
  exact len_le_iff.1 (by omega)

theorem State.Inv.getElem?_ft_succ {k : Nat} (hk : k < 2 ^ s.ndeg - 1) :
    s.ft[k + 1]? = some (elementAfter s.gen s.ndeg k) := by
  obtain ⟨-, -, -, hft⟩ := h.fieldRecord_of_ready hr
  rw [hft, getElem?_buildTable_succ _ _ _ hk]

/-- The table has an entry for every position below `2 ^ n - 1`, and no more. -/
theorem State.Inv.lt_of_getElem?_ft {k v : Nat} (hk : s.ft[k + 1]? = some v) : k < 2 ^ s.ndeg - 1 := by
  have hlt := (List.getElem?_eq_some_iff.1 hk).1
  rw [h.length_ft hr] at hlt
  omega

theorem State.Inv.elementAfter_gen (k : Nat) : elementAfter s.gen s.ndeg k = pmod (1 <<< k) s.gen :=
  elementAfter_eq_pmod (h.len_gen hr) (h.one_le_ndeg hr) k

/-- The syndrome of a codeword with one bit flipped is the element of that bit's position. -/
theorem State.Inv.pmod_pmul_xor_bit (w p : Nat) :
    pmod (pmul w s.gen ^^^ 1 <<< p) s.gen = elementAfter s.gen s.ndeg p := by
  rw [pmod_pmul_xor (h.gen_ne_zero hr), h.elementAfter_gen hr]

/-- Flipping the bit whose element is the syndrome leaves a codeword. -/
theorem State.Inv.pmod_xor_bit {r e : Nat} (he : s.ft[e + 1]? = some (pmod r s.gen)) :
    pmod (r ^^^ 1 <<< e) s.gen = 0 := by
  have hentry := h.getElem?_ft_succ hr (h.lt_of_getElem?_ft hr he)
  rw [h.elementAfter_gen hr, he, Option.some_inj] at hentry
  rw [pmod_xor (h.gen_ne_zero hr), hentry, Nat.xor_self]

/-- The flipped bit is a bit of the register (R7). -/
theorem State.Inv.len_xor_bit_le {rs1 : RegNum} {e v : Nat} (he : s.ft[e + 1]? = some v) :
    len (readReg s rs1 ^^^ 1 <<< e) ≤ s.cfg.xw := by
  have hlt := h.lt_of_getElem?_ft hr he
  have hbit : 1 <<< (e : Int).toNat < 2 ^ s.cfg.xw := h.one_shiftLeft_lt hr ⟨by omega, by omega⟩
  exact len_le_iff.2 (Nat.xor_lt_two_pow (h.registersFit rs1) hbit)

end field

/-! ### The commands -/

/-- Settles O43: the product is `n` bits longer than a word other than 0, which is the overflow check's length. -/
theorem ccEncMultipliesByTheGenerator : Obligations.CcEncMultipliesByTheGenerator := by
  intro rd rs1 s h hf
  refine ⟨Laws.RowMatches.ccEnc rd rs1, exec_of_not_ready rfl hf, fun hr hw hdeg => ?_, fun hr hfit => ?_⟩
  · have hlen := len_pmul hw (h.len_gen hr)
    unfold deg at hdeg
    exact exec_ccEnc_of_lt hf hr (by omega)
  · have hlen (hw : readReg s rs1 ≠ 0) := len_pmul hw (h.len_gen hr)
    refine ⟨exec_ccEnc_of_le hf hr ?_, hlen, fun hw => by rw [hw, zero_pmul], fun hw => by rw [hw, one_pmul]⟩
    obtain hw | hw := eq_or_ne (readReg s rs1) 0
    · simp [hw]
    · have hdeg := hfit.resolve_left hw
      unfold deg at hdeg
      rw [hlen hw]
      omega

/-- Settles O44: the quotient of a word shorter than the generator is 0, and of a longer one as long as the degrees
differ, so of one bit where they are equal. -/
theorem ccQuoDividesByTheGenerator : Obligations.CcQuoDividesByTheGenerator := by
  intro rd rs1 s h hf
  refine ⟨Laws.RowMatches.ccQuo rd rs1, exec_of_not_ready rfl hf, fun hr => ?_⟩
  have hgen := h.len_gen hr
  have hquo := len_pquo (a := readReg s rs1) hgen
  unfold deg
  refine ⟨exec_ccQuo_of_ready hf hr, fun hdeg => ?_, fun hdeg => ?_, hquo⟩
  · exact (pdiv_of_len_lt (by omega)).left
  · exact eq_one_of_len_eq_one (by rw [hquo (by omega)]; omega)

/-- Settles O45: the remainder ignores the codeword, and that of one bit is the element of its position. -/
theorem ccSynIsTheRemainder : Obligations.CcSynIsTheRemainder := by
  intro rd rs1 s h hf
  refine ⟨Laws.RowMatches.ccSyn rd rs1, exec_of_not_ready rfl hf, fun hr => ?_⟩
  have hgen := h.len_gen hr
  have hne := h.gen_ne_zero hr
  refine ⟨exec_ccSyn_of_ready hf hr, h.pmod_gen_lt hr _, fun hdeg => ?_, fun hw => ?_, fun w hw => ?_,
    fun w p hp hw => ?_⟩
  · unfold deg at hdeg
    exact (pdiv_of_len_lt (by omega)).right
  · rw [hw, pmod_self hne]
  · rw [hw, pmod_pmul hne]
  · have hn := Nat.one_lt_two_pow (Nat.one_le_iff_ne_zero.1 (h.one_le_ndeg hr))
    rw [hw, h.pmod_pmul_xor_bit hr, h.getElem?_ft_succ hr (by omega)]

/-- Settles O46: the lookup's rules on the remainder. -/
theorem ccLocIsTheLogOfTheRemainder : Obligations.CcLocIsTheLogOfTheRemainder := by
  intro rd rs1 s h hf
  refine ⟨Laws.RowMatches.ccLoc rd rs1, exec_of_not_ready rfl hf, fun hr => ?_⟩
  rw [exec_ccLoc_of_ready hf hr]
  refine ⟨fun j hj hlow => needLog_of_lowest hj hlow _, fun habs => needLog_of_absent habs _, fun hzero => ?_⟩
  rw [hzero, h.needLog_zero hr, sext_neg_one]

/-- Settles O47: the lookup's rules on the remainder; the flipped bit has the remainder as its own, so the two cancel. -/
theorem ccDecCorrectsTheReceivedWord : Obligations.CcDecCorrectsTheReceivedWord := by
  intro rd rs1 s h hf
  refine ⟨Laws.RowMatches.ccDec rd rs1, exec_of_not_ready rfl hf, fun hr => ⟨exec_ccDec_of_pmod_eq_zero hf hr,
    fun e hsyn he hlow => ⟨?_, h.pmod_xor_bit hr he, h.len_xor_bit_le hr he⟩, fun habs => ?_⟩⟩
  · rw [exec_ccDec_of_pmod_ne_zero hf hr hsyn, needLog_of_lowest he hlow, Nat.cast_succ, add_sub_cancel_right]
    rfl
  · have hsyn : pmod (readReg s rs1) s.gen ≠ 0 := fun hzero => habs 0 (hzero ▸ h.getElem?_ft_zero hr)
    rw [exec_ccDec_of_pmod_ne_zero hf hr hsyn, needLog_of_absent habs]

/-! ### A primitive generator (R84, R108): the elements are the orbit of 1 under the construction -/

section primitive

variable {g m : Nat} (hg : len g = m + 1) (hp : PrimitiveGenerator g)
include hg hp

theorem one_lt_two_pow_of_primitive : 1 < 2 ^ m := by
  obtain ⟨hdeg, -⟩ := hp
  unfold deg at hdeg
  exact Nat.one_lt_two_pow (by omega)

theorem minimalPeriod_nextElement : Function.minimalPeriod (nextElement g m) 1 = 2 ^ m - 1 := by
  have hpos : 0 < 2 ^ m - 1 := Nat.sub_pos_of_lt (one_lt_two_pow_of_primitive hg hp)
  obtain ⟨-, hback, hfirst⟩ := hp
  rw [hg, Nat.add_sub_cancel] at hback hfirst
  have hperiodic : Function.IsPeriodicPt (nextElement g m) (2 ^ m - 1) 1 := hback
  refine le_antisymm (hperiodic.minimalPeriod_le hpos) (not_lt.1 fun hlt => ?_)
  exact hfirst _ hlt (hperiodic.minimalPeriod_pos hpos) (Function.isPeriodicPt_minimalPeriod _ _)

theorem elementAfter_mod (k : Nat) : elementAfter g m (k % (2 ^ m - 1)) = elementAfter g m k := by
  rw [← minimalPeriod_nextElement hg hp]
  exact Function.iterate_mod_minimalPeriod_eq

theorem injOn_elementAfter : Set.InjOn (elementAfter g m) (Set.Iio (2 ^ m - 1)) := by
  rw [← minimalPeriod_nextElement hg hp]
  exact Function.iterate_injOn_Iio_minimalPeriod

/-- The construction stays at 0 once it is there, and would not return to 1. -/
theorem elementAfter_ne_zero {k : Nat} (hk : k < 2 ^ m - 1) : elementAfter g m k ≠ 0 := by
  intro hzero
  have hfixed : nextElement g m 0 = 0 := by simp [nextElement]
  have hback : elementAfter g m (2 ^ m - 1) = 1 := by
    rw [← elementAfter_mod hg hp, Nat.mod_self]
    rfl
  have hlast : elementAfter g m (2 ^ m - 1 - k + k) = 0 := by
    unfold elementAfter at hzero ⊢
    rw [Function.iterate_add_apply, hzero, Function.iterate_fixed hfixed]
  rw [Nat.sub_add_cancel hk.le, hback] at hlast
  cases hlast

/-- The `2 ^ m - 1` elements are distinct, so they are all the values of `m` bits but 0. -/
theorem exists_elementAfter_eq {v : Nat} (hv : v < 2 ^ m) (h0 : v ≠ 0) : ∃ k < 2 ^ m - 1, elementAfter g m k = v := by
  have hmaps : Set.MapsTo (elementAfter g m) (Finset.range (2 ^ m - 1)) (Finset.Ioo 0 (2 ^ m)) := fun k hk => by
    have hk : k < 2 ^ m - 1 := by simpa using hk
    have hlt : elementAfter g m k < 2 ^ m := iterate_nextElement_lt g m 1 k (one_lt_two_pow_of_primitive hg hp)
    simpa [hlt] using Nat.pos_of_ne_zero (elementAfter_ne_zero hg hp hk)
  have hinj : Set.InjOn (elementAfter g m) (Finset.range (2 ^ m - 1)) := by
    simpa using injOn_elementAfter hg hp
  have hsurj := Finset.surjOn_of_injOn_of_card_le _ hmaps hinj (by simp)
  simpa using hsurj (by simpa [hv] using Nat.pos_of_ne_zero h0 : v ∈ _)

end primitive

section primitiveField

variable (h : s.Inv) (hr : s.ready = true) (hp : PrimitiveGenerator s.gen)
include h hr hp

/-- The lowest index of an element is that of its exponent: the entries are distinct. -/
theorem State.Inv.needLog_elementAfter {i : Instr} {r : Nat} (hlt : r < 2 ^ s.ndeg - 1) (k : Int → Result) :
    needLog i s (elementAfter s.gen s.ndeg r) k = k r := by
  have hgen := h.len_gen hr
  rw [needLog_of_lowest (h.getElem?_ft_succ hr hlt) (fun j hj => ?_) k, Nat.cast_succ, add_sub_cancel_right]
  cases j with
  | zero =>
    rw [h.getElem?_ft_zero hr, ne_eq, Option.some_inj]
    exact (elementAfter_ne_zero hgen hp hlt).symm
  | succ j =>
    have hj : j < r := Nat.lt_of_succ_lt_succ hj
    rw [h.getElem?_ft_succ hr (hj.trans hlt), ne_eq, Option.some_inj]
    exact fun heq => hj.ne (injOn_elementAfter hgen hp (hj.trans hlt) hlt heq)

/-- No lookup of an n-bit value fails. -/
theorem State.Inv.exists_needLog_eq {v : Nat} (hv : v < 2 ^ s.ndeg) {i : Instr} (k : Int → Result) :
    ∃ e, needLog i s v k = k e := by
  obtain rfl | h0 := eq_or_ne v 0
  · exact ⟨-1, h.needLog_zero hr k⟩
  · obtain ⟨r, hlt, rfl⟩ := exists_elementAfter_eq (h.len_gen hr) hp hv h0
    exact ⟨r, h.needLog_elementAfter hr hp hlt k⟩

end primitiveField

/-- Settles O50: every remainder is in the table of a primitive generator, and the element of position `p` is that of
`p % (2 ^ n - 1)`. -/
theorem noReceivedWordFaultsTheDecoder : Obligations.NoReceivedWordFaultsTheDecoder := by
  rintro rd rs1 s ⟨h, hf, hr⟩ hp
  have hsyn := h.pmod_gen_lt hr (readReg s rs1)
  refine ⟨?_, ?_, fun w p hw => ?_⟩
  · obtain hzero | hne := eq_or_ne (pmod (readReg s rs1) s.gen) 0
    · exact ⟨_, exec_ccDec_of_pmod_eq_zero hf hr hzero, hf⟩
    · obtain ⟨e, he⟩ := h.exists_needLog_eq hr hp hsyn _
      exact ⟨_, (exec_ccDec_of_pmod_ne_zero hf hr hne).trans he, hf⟩
  · obtain ⟨e, he⟩ := h.exists_needLog_eq hr hp hsyn _
    exact ⟨_, (exec_ccLoc_of_ready hf hr).trans he, hf⟩
  · have hgen := h.len_gen hr
    have hpos : 0 < 2 ^ s.ndeg - 1 := Nat.sub_pos_of_lt (one_lt_two_pow_of_primitive hgen hp)
    rw [exec_ccLoc_of_ready hf hr, hw, h.pmod_pmul_xor_bit hr, ← elementAfter_mod hgen hp,
      h.needLog_elementAfter hr hp (Nat.mod_lt p hpos), sext_natCast]

end Sys2Proof.Machine
end

section
/-! What a command's result depends on: its source registers, the constants and the field (R46). -/

namespace Sys2Proof.Machine

/-- Two units that are not faulted and agree on all that R46 lets command `i` read. -/
structure AgreeFor (i : Instr) (s₁ s₂ : State) : Prop where
  unfaulted₁ : s₁.faulted = false
  unfaulted₂ : s₂.faulted = false
  cfg : s₁.cfg = s₂.cfg
  ready : s₁.ready = s₂.ready
  gen : s₁.gen = s₂.gen
  ndeg : s₁.ndeg = s₂.ndeg
  ft : s₁.ft = s₂.ft
  source : ∀ r ∈ sources i, readReg s₁ r = readReg s₂ r

/-- Two states that command `i` leaves show one result of it: the same fault record, or the same destination value and,
for CC.DEC, the same CORR (R105). -/
def SameResult (i : Instr) (t₁ t₂ : State) : Prop :=
  t₂.faulted = t₁.faulted ∧
  (t₁.faulted = true → t₂.cause = t₁.cause ∧ t₂.finfo = t₁.finfo) ∧
  (t₁.faulted = false → ∀ rd, destination i = some rd → readReg t₂ rd = readReg t₁ rd) ∧
  (t₁.faulted = false → ∀ rd rs1, i = .ccDec rd rs1 → t₂.corr = t₁.corr)

/-- Where the first outcome is a next state, so is the second, with the same result. -/
def SameOutcome (i : Instr) (k₁ k₂ : Result) : Prop :=
  ∀ t₁, k₁ = .next t₁ → ∃ t₂, k₂ = .next t₂ ∧ SameResult i t₁ t₂

section rules

variable {i : Instr} {s₁ s₂ : State}

/-! ### One rule per shared operation -/

theorem sameOutcome_next {t₁ t₂ : State} (h : SameResult i t₁ t₂) : SameOutcome i (.next t₁) (.next t₂) := by
  rintro t ⟨⟩
  exact ⟨t₂, rfl, h⟩

theorem sameOutcome_raise (s₁ s₂ : State) (c : Cause) : SameOutcome i (raise i c s₁) (raise i c s₂) :=
  sameOutcome_next (by simp [SameResult])

theorem sameOutcome_check {ok₁ ok₂ : Prop} [Decidable ok₁] [Decidable ok₂] {c : Cause} {k₁ k₂ : Result}
    (hok : ok₁ ↔ ok₂) (hk : SameOutcome i k₁ k₂) : SameOutcome i (check ok₁ i c s₁ k₁) (check ok₂ i c s₂ k₂) := by
  unfold check
  by_cases h : ok₁
  · rwa [if_pos h, if_pos (hok.1 h)]
  · rw [if_neg h, if_neg (mt hok.2 h)]
    exact sameOutcome_raise s₁ s₂ c

variable (h : AgreeFor i s₁ s₂)
include h

theorem sameOutcome_unlessFaulted {k₁ k₂ : Result} (hk : SameOutcome i k₁ k₂) :
    SameOutcome i (unlessFaulted s₁ k₁) (unlessFaulted s₂ k₂) := by
  rwa [unlessFaulted_of_not_faulted h.unfaulted₁, unlessFaulted_of_not_faulted h.unfaulted₂]

theorem sameOutcome_fieldCommand {k₁ k₂ : Result} (hk : SameOutcome i k₁ k₂) :
    SameOutcome i (unlessFaulted s₁ (needField i s₁ k₁)) (unlessFaulted s₂ (needField i s₂ k₂)) :=
  sameOutcome_unlessFaulted h (sameOutcome_check (by rw [h.ready]) hk)

theorem sameOutcome_readTable {j : Nat} {k₁ k₂ : Nat → Result} (hk : ∀ v, SameOutcome i (k₁ v) (k₂ v)) :
    SameOutcome i (readTable s₁ j k₁) (readTable s₂ j k₂) := by
  unfold readTable
  rw [h.ft]
  split
  · exact hk _
  · rintro t ⟨⟩

theorem sameOutcome_needLog {v₁ v₂ : Nat} (hv : v₁ = v₂) {k₁ k₂ : Int → Result}
    (hk : ∀ e, SameOutcome i (k₁ e) (k₂ e)) : SameOutcome i (needLog i s₁ v₁ k₁) (needLog i s₂ v₂ k₂) := by
  unfold needLog
  rw [h.ft, hv]
  split
  · exact hk _
  · exact sameOutcome_raise s₁ s₂ _

theorem sameOutcome_writeReg {rd : RegNum} (hd : destination i = some rd) (hi : ∀ a b, i ≠ .ccDec a b) {v₁ v₂ : Word}
    (hv : v₁ = v₂) : SameOutcome i (.next (writeReg s₁ rd v₁)) (.next (writeReg s₂ rd v₂)) :=
  sameOutcome_next (by simp [SameResult, h.unfaulted₁, h.unfaulted₂, hd, hi, hv])

theorem sameOutcome_writeExponent {rd : RegNum} (hd : destination i = some rd) (hi : ∀ a b, i ≠ .ccDec a b)
    {e₁ e₂ : Int} (he : e₁ = e₂) :
    SameOutcome i (.next (writeExponent s₁ rd e₁)) (.next (writeExponent s₂ rd e₂)) :=
  sameOutcome_writeReg h hd hi (by rw [h.cfg, he])

theorem sameOutcome_writeCorr {rd : RegNum} (hd : destination i = some rd) {v₁ v₂ : Word} (hv : v₁ = v₂) (b : Bool) :
    SameOutcome i (.next (writeCorr (writeReg s₁ rd v₁) b)) (.next (writeCorr (writeReg s₂ rd v₂) b)) :=
  sameOutcome_next (by simp [SameResult, h.unfaulted₁, h.unfaulted₂, hd, hv])

/-! Each operand check reads a source register, so it passes in both units with one value, or in neither. -/

variable {r : RegNum} (hr : r ∈ sources i)
include hr

theorem sameOutcome_needExponent {k₁ k₂ : Int → Result} (hk : ∀ e, SameOutcome i (k₁ e) (k₂ e)) :
    SameOutcome i (needExponent i s₁ r k₁) (needExponent i s₂ r k₂) := by
  have hread : signedReg s₁ r = signedReg s₂ r := by rw [signedReg, signedReg, h.cfg, h.source r hr]
  exact sameOutcome_check (by rw [hread, h.ndeg]) (by rw [hread]; exact hk _)

theorem sameOutcome_needElement {k₁ k₂ : Nat → Result} (hk : ∀ v, SameOutcome i (k₁ v) (k₂ v)) :
    SameOutcome i (needElement i s₁ r k₁) (needElement i s₂ r k₂) :=
  sameOutcome_check (by rw [h.source r hr, h.ndeg]) (by rw [h.source r hr]; exact hk _)

theorem sameOutcome_needResidue {k₁ k₂ : Nat → Result} (hk : ∀ v, SameOutcome i (k₁ v) (k₂ v)) :
    SameOutcome i (needResidue i s₁ r k₁) (needResidue i s₂ r k₂) :=
  sameOutcome_check (by rw [h.source r hr, h.cfg]) (by rw [h.source r hr]; exact hk _)

theorem sameOutcome_needModexpExponent {k₁ k₂ : Nat → Result} (hk : ∀ v, SameOutcome i (k₁ v) (k₂ v)) :
    SameOutcome i (needModexpExponent i s₁ r k₁) (needModexpExponent i s₂ r k₂) :=
  sameOutcome_check (by rw [h.source r hr]) (by rw [h.source r hr]; exact hk _)

end rules

/-! ### The commands -/

theorem sameOutcome_ccDec {rd rs1 : RegNum} {s₁ s₂ : State} (h : AgreeFor (.ccDec rd rs1) s₁ s₂) :
    SameOutcome (.ccDec rd rs1) (exec (.ccDec rd rs1) s₁) (exec (.ccDec rd rs1) s₂) := by
  have hw : polynomial s₁ rs1 = polynomial s₂ rs1 := h.source rs1 (by simp [sources])
  refine sameOutcome_fieldCommand h ?_
  rw [hw, h.gen]
  split
  · exact sameOutcome_writeCorr h rfl rfl false
  · exact sameOutcome_needLog h rfl fun e => sameOutcome_writeCorr h rfl rfl true

/-- Every command but GF.INIT, by the rules of the operations it is made of. -/
theorem exec_sameOutcome {i : Instr} {s₁ s₂ : State} (hi : ∀ r, i ≠ .gfInit r) (h : AgreeFor i s₁ s₂) :
    SameOutcome i (exec i s₁) (exec i s₂) := by
  cases i with
  | gfInit rs1 => exact absurd rfl (hi rs1)
  | gfElem rd rs1 =>
    exact sameOutcome_fieldCommand h <| sameOutcome_needExponent h (by simp [sources]) fun _ =>
      sameOutcome_readTable h fun _ => sameOutcome_writeReg h rfl nofun rfl
  | gfLog rd rs1 =>
    exact sameOutcome_fieldCommand h <| sameOutcome_needElement h (by simp [sources]) fun _ =>
      sameOutcome_needLog h rfl fun _ => sameOutcome_writeExponent h rfl nofun rfl
  | gfAdd rd rs1 rs2 =>
    exact sameOutcome_fieldCommand h <| sameOutcome_needExponent h (by simp [sources]) fun _ =>
      sameOutcome_needExponent h (by simp [sources]) fun _ => sameOutcome_readTable h fun _ =>
      sameOutcome_readTable h fun _ => sameOutcome_needLog h rfl fun _ => sameOutcome_writeExponent h rfl nofun rfl
  | gfMul rd rs1 rs2 =>
    exact sameOutcome_fieldCommand h <| sameOutcome_needExponent h (by simp [sources]) fun _ =>
      sameOutcome_needExponent h (by simp [sources]) fun _ =>
      sameOutcome_writeExponent h rfl nofun (by rw [h.ndeg])
  | gfPow rd rs1 rs2 =>
    have hp : count s₁ rs2 = count s₂ rs2 := h.source rs2 (by simp [sources])
    exact sameOutcome_fieldCommand h <| sameOutcome_needExponent h (by simp [sources]) fun _ =>
      sameOutcome_writeExponent h rfl nofun (by rw [h.ndeg, hp])
  | ccEnc rd rs1 =>
    have hw : polynomial s₁ rs1 = polynomial s₂ rs1 := h.source rs1 (by simp [sources])
    exact sameOutcome_fieldCommand h <| sameOutcome_check (by rw [hw, h.gen, h.cfg]) <|
      sameOutcome_writeReg h rfl nofun (by rw [hw, h.gen])
  | ccQuo rd rs1 | ccSyn rd rs1 =>
    have hw : polynomial s₁ rs1 = polynomial s₂ rs1 := h.source rs1 (by simp [sources])
    exact sameOutcome_fieldCommand h <| sameOutcome_writeReg h rfl nofun (by rw [hw, h.gen])
  | ccLoc rd rs1 =>
    have hw : polynomial s₁ rs1 = polynomial s₂ rs1 := h.source rs1 (by simp [sources])
    exact sameOutcome_fieldCommand h <| sameOutcome_needLog h (by rw [hw, h.gen]) fun _ =>
      sameOutcome_writeExponent h rfl nofun rfl
  | ccDec rd rs1 => exact sameOutcome_ccDec h
  | meExp rd rs1 rs2 =>
    exact sameOutcome_unlessFaulted h <| sameOutcome_needResidue h (by simp [sources]) fun _ =>
      sameOutcome_needModexpExponent h (by simp [sources]) fun _ =>
      sameOutcome_writeReg h rfl nofun (by rw [h.cfg])
  | meEncr rd rs1 | meDecr rd rs1 =>
    exact sameOutcome_unlessFaulted h <| sameOutcome_needResidue h (by simp [sources]) fun _ =>
      sameOutcome_writeReg h rfl nofun (by rw [h.cfg])
  | meC2i rd rs1 =>
    have hk : characterCode s₁ rs1 = characterCode s₂ rs1 := h.source rs1 (by simp [sources])
    refine sameOutcome_unlessFaulted h ?_
    rw [hk]
    split
    · exact sameOutcome_writeReg h rfl nofun rfl
    · exact sameOutcome_raise s₁ s₂ _
  | meI2c rd rs1 =>
    have hv : alphabetValue s₁ rs1 = alphabetValue s₂ rs1 := h.source rs1 (by simp [sources])
    refine sameOutcome_unlessFaulted h ?_
    rw [hv]
    split
    · exact sameOutcome_writeReg h rfl nofun rfl
    · exact sameOutcome_raise s₁ s₂ _

/-- Settles O25: by the rules of the shared operations, each of which reads only what the two units agree on. -/
theorem commandsArePureFunctionsOfTheirSources : Obligations.CommandsArePureFunctionsOfTheirSources := by
  intro i s₁ s₂ t₁ hi hf₁ hf₂ hcfg hready hgen hndeg hft hsource
  exact exec_sameOutcome hi ⟨hf₁, hf₂, hcfg, hready, hgen, hndeg, hft, hsource⟩ t₁

end Sys2Proof.Machine
end

section
/-! The ME family: modular exponentiation and the character map (R121 to R130). The family `42_modexp.md`. -/

namespace Sys2Proof.Machine

/-! ### Square and multiply (R122) -/

/-- The loop's invariant: before the `k` low bits of the exponent the accumulator is the power of the bits above
them, and each round takes one bit more. -/
theorem sqmLoop_pow (kn num exp k : Nat) : sqmLoop kn num exp k (num ^ (exp / 2 ^ k) % kn) = num ^ exp % kn := by
  induction k with
  | zero => simp [sqmLoop]
  | succ k ih =>
    have hhigh : exp / 2 ^ (k + 1) = exp / 2 ^ k / 2 := by rw [pow_succ, Nat.div_div_eq_div_mul]
    rw [sqmLoop, hhigh]
    generalize hq : exp / 2 ^ k = q at ih
    have hsquare : mulmod kn (num ^ (q / 2) % kn) (num ^ (q / 2) % kn) = num ^ (q / 2 + q / 2) % kn := by
      rw [mulmod, ← Nat.mul_mod, ← pow_add]
    rw [hsquare, Nat.testBit_eq_decide_div_mod_eq, hq]
    by_cases hbit : q % 2 = 1
    · have hodd : q / 2 + q / 2 + 1 = q := by omega
      have hmul : mulmod kn (num ^ (q / 2 + q / 2) % kn) num = num ^ q % kn := by
        rw [mulmod, Nat.mod_mul_mod, ← pow_succ, hodd]
      rw [if_pos (decide_eq_true hbit), hmul, ih]
    · have heven : q / 2 + q / 2 = q := by omega
      rw [if_neg (by simpa using hbit), heven, ih]

theorem sqm_eq_pow_mod {kn num exp : Nat} (hnum : num < kn) (hexp : 1 ≤ exp) : sqm kn num exp = num ^ exp % kn := by
  obtain ⟨m, hm⟩ := exists_len_eq_succ (v := exp) (by omega)
  have hlead : exp / 2 ^ m = 1 := by
    obtain ⟨hlo, hhi⟩ := len_eq_succ_iff.1 hm
    exact Nat.div_eq_of_lt_le (by omega) (by rw [pow_succ] at hhi; omega)
  have hloop := sqmLoop_pow kn num exp m
  rw [hlead, pow_one, Nat.mod_eq_of_lt hnum] at hloop
  rw [sqm, hm, Nat.add_sub_cancel, hloop]

/-! ### The alphabet ROM (R127 to R130) -/

theorem length_alpha : alpha.length = 67 := by decide

theorem nodup_alpha : alpha.Nodup := by decide

/-- The codes are distinct, so the scan stops at the code's own index. -/
theorem charToInt_of_getElem? {j : Nat} {c : CharCode} (hc : alpha[j]? = some c) :
    charToInt c.toNat = some (j + 2) := by
  obtain ⟨hj, rfl⟩ := List.getElem?_eq_some_iff.1 hc
  have hscan : alpha.findIdx? (fun c => c.toNat == alpha[j].toNat) = some j := by
    refine List.findIdx?_eq_some_iff_getElem.2 ⟨hj, by simp, fun k hk heq => ?_⟩
    have hsame : alpha[k] = alpha[j] := BitVec.eq_of_toNat_eq (by simpa using heq)
    exact hk.ne (nodup_alpha.getElem_inj_iff.1 hsame)
  rw [charToInt, hscan, Option.map_some]

theorem charToInt_of_absent {k : Word} (hk : ∀ c ∈ alpha, k ≠ c.toNat) : charToInt k = none := by
  rw [charToInt, Option.map_eq_none_iff, List.findIdx?_eq_none_iff]
  exact fun c hc => beq_false_of_ne (hk c hc).symm

theorem intToChar_of_out_of_range {v : Nat} (hv : v < 2 ∨ 68 < v) : intToChar v = none := by
  have hout : ¬(2 ≤ v ∧ v ≤ 68) := by omega
  exact if_neg hout

theorem intToChar_of_in_range {v : Nat} (hlo : 2 ≤ v) (hhi : v ≤ 68) : intToChar v = alpha[v - 2]? :=
  if_pos ⟨hlo, hhi⟩

theorem exists_code_of_in_range {v : Nat} (hlo : 2 ≤ v) (hhi : v ≤ 68) : ∃ c, alpha[v - 2]? = some c :=
  ⟨_, List.getElem?_eq_getElem (by rw [length_alpha]; omega)⟩

/-- Settles O54: the entries by evaluation; a code's alphabet value because the codes are distinct. -/
theorem alphabetRom : Obligations.AlphabetRom :=
  ⟨length_alpha, nodup_alpha, by decide, by decide, by decide, rfl, rfl, rfl, rfl, rfl,
    fun _ _ => charToInt_of_getElem?⟩

/-! ### The commands of an unfaulted unit, by their checks (R121, R123 to R125, R129, R130) -/

section unfaulted

variable {s : State} {rd rs1 rs2 : RegNum} (hf : s.faulted = false)
include hf

theorem exec_meExp_of_bad_operand (h : s.cfg.kn ≤ readReg s rs1 ∨ readReg s rs2 = 0) :
    exec (.meExp rd rs1 rs2) s = .next (takeFault s .badModexpOperand (encode (.meExp rd rs1 rs2))) := by
  refine (unlessFaulted_of_not_faulted hf _).trans ?_
  by_cases hnum : readReg s rs1 < s.cfg.kn
  · have hexp : readReg s rs2 = 0 := h.resolve_left (not_le.2 hnum)
    exact (check_of_pos hnum _).trans (check_of_neg (by simp [hexp]) _)
  · exact check_of_neg hnum _

theorem exec_meExp_of_operands (hnum : readReg s rs1 < s.cfg.kn) (hexp : 1 ≤ readReg s rs2) :
    exec (.meExp rd rs1 rs2) s = .next (writeReg s rd (readReg s rs1 ^ readReg s rs2 % s.cfg.kn)) := by
  rw [← sqm_eq_pow_mod hnum hexp]
  exact (unlessFaulted_of_not_faulted hf _).trans ((check_of_pos hnum _).trans (check_of_pos hexp _))

theorem exec_meEncr_of_ge (h : s.cfg.kn ≤ readReg s rs1) :
    exec (.meEncr rd rs1) s = .next (takeFault s .badModexpOperand (encode (.meEncr rd rs1))) :=
  (unlessFaulted_of_not_faulted hf _).trans (check_of_neg (not_lt.2 h) _)

theorem exec_meEncr_of_lt (hke : 1 ≤ s.cfg.ke) (hnum : readReg s rs1 < s.cfg.kn) :
    exec (.meEncr rd rs1) s = .next (writeReg s rd (readReg s rs1 ^ s.cfg.ke % s.cfg.kn)) := by
  rw [← sqm_eq_pow_mod hnum hke]
  exact (unlessFaulted_of_not_faulted hf _).trans (check_of_pos hnum _)

theorem exec_meDecr_of_ge (h : s.cfg.kn ≤ readReg s rs1) :
    exec (.meDecr rd rs1) s = .next (takeFault s .badModexpOperand (encode (.meDecr rd rs1))) :=
  (unlessFaulted_of_not_faulted hf _).trans (check_of_neg (not_lt.2 h) _)

theorem exec_meDecr_of_lt (hkd : 1 ≤ s.cfg.kd) (hnum : readReg s rs1 < s.cfg.kn) :
    exec (.meDecr rd rs1) s = .next (writeReg s rd (readReg s rs1 ^ s.cfg.kd % s.cfg.kn)) := by
  rw [← sqm_eq_pow_mod hnum hkd]
  exact (unlessFaulted_of_not_faulted hf _).trans (check_of_pos hnum _)

theorem exec_meC2i_of_code {j : Nat} {c : CharCode} (hc : alpha[j]? = some c) (hr : readReg s rs1 = c.toNat) :
    exec (.meC2i rd rs1) s = .next (writeReg s rd (j + 2)) := by
  refine (unlessFaulted_of_not_faulted hf _).trans ?_
  rw [characterCode_eq, hr, charToInt_of_getElem? hc]

theorem exec_meC2i_of_absent (h : ∀ c ∈ alpha, readReg s rs1 ≠ c.toNat) :
    exec (.meC2i rd rs1) s = .next (takeFault s .notInAlphabet (encode (.meC2i rd rs1))) := by
  refine (unlessFaulted_of_not_faulted hf _).trans ?_
  rw [characterCode_eq, charToInt_of_absent h, raise]

theorem exec_meI2c_of_out_of_range (h : readReg s rs1 < 2 ∨ 68 < readReg s rs1) :
    exec (.meI2c rd rs1) s = .next (takeFault s .badAlphabetValue (encode (.meI2c rd rs1))) := by
  refine (unlessFaulted_of_not_faulted hf _).trans ?_
  rw [alphabetValue_eq, intToChar_of_out_of_range h, raise]

theorem exec_meI2c_of_in_range (hlo : 2 ≤ readReg s rs1) (hhi : readReg s rs1 ≤ 68) {c : CharCode}
    (hc : alpha[readReg s rs1 - 2]? = some c) : exec (.meI2c rd rs1) s = .next (writeReg s rd c.toNat) := by
  refine (unlessFaulted_of_not_faulted hf _).trans ?_
  rw [alphabetValue_eq, intToChar_of_in_range hlo hhi, hc]

end unfaulted

/-- Settles O52: by the two operand checks, and SQM as a power. -/
theorem meExpIsModularExponentiation : Obligations.MeExpIsModularExponentiation :=
  fun rd rs1 rs2 _ hf => ⟨Laws.RowMatches.meExp rd rs1 rs2, exec_meExp_of_bad_operand hf, exec_meExp_of_operands hf⟩

/-- Settles O53: by the operand check of each command, and SQM as a power. -/
theorem meEncrAndMeDecrUseTheConstants : Obligations.MeEncrAndMeDecrUseTheConstants :=
  fun rd rs1 _ hf hke hkd => ⟨Laws.RowMatches.meEncr rd rs1, Laws.RowMatches.meDecr rd rs1,
    fun h => ⟨exec_meEncr_of_ge hf h, exec_meDecr_of_ge hf h⟩,
    fun h => ⟨exec_meEncr_of_lt hf hke h, exec_meDecr_of_lt hf hkd h⟩⟩

/-- Settles O55: by what the scan of the alphabet finds. -/
theorem meC2iMapsCharacterCodes : Obligations.MeC2iMapsCharacterCodes :=
  fun rd rs1 _ hf => ⟨Laws.RowMatches.meC2i rd rs1, fun _ _ => exec_meC2i_of_code hf, exec_meC2i_of_absent hf⟩

/-- Settles O56: the range 2..68 holds just the indices of the ROM, and ME.C2I finds the code at the index it was read
from. -/
theorem meI2cMapsAlphabetValues : Obligations.MeI2cMapsAlphabetValues := by
  intro rd rs1 s hf
  refine ⟨Laws.RowMatches.meI2c rd rs1, exec_meI2c_of_out_of_range hf, fun hlo hhi => ?_⟩
  obtain ⟨c, hc⟩ := exists_code_of_in_range hlo hhi
  refine ⟨c, hc, exec_meI2c_of_in_range hf hlo hhi hc, fun rd' => ?_⟩
  have hf' : (writeReg s rd c.toNat).faulted = false := hf
  have hback := exec_meC2i_of_code (rd := rd') hf' hc (readReg_writeReg_self s rd _)
  rwa [Nat.sub_add_cancel hlo] at hback

end Sys2Proof.Machine
end

section
/-! The exceptions of the unit: what a faulted unit ignores, what raises and what clears a fault, and the order of the
checks (R140 to R145). The family `60_exceptions.md`. -/

namespace Sys2Proof.Machine

variable {s t : State} {i : Instr} {w : CmdWord}

/-! ### The faulted unit (R144) -/

/-- Every command makes the faulted check of R142 first. -/
theorem exec_of_faulted (hf : s.faulted = true) : exec i s = .next s := by
  cases i with
  | _ => exact unlessFaulted_of_faulted hf _

/-- A faulted unit drops legal and illegal words alike. -/
theorem performCmd_of_faulted (hf : s.faulted = true) : performCmd w s = .next s := by
  rw [performCmd_eq_next_iff]
  cases hd : decode w with
  | ok i => exact .inl ⟨i, rfl, exec_of_faulted hf⟩
  | error e => exact .inr ⟨e, rfl, .inl ⟨hf, rfl⟩⟩

/-- Settles O13: CMD and WRX make the faulted check before any effect, RDX and RDC make none. -/
theorem faultedUnitDropsCommandsAndWrites : Obligations.FaultedUnitDropsCommandsAndWrites := by
  intro s rest hf
  refine ⟨fun w hp => ?_, fun i v hv hp => (wrxWritesOneRegister s i v rest hp hv).right hf,
    fun i hp => rdxReturnsTheRegister s i rest hp, fun c hp => step_of_rdc hp, fun i => exec_of_faulted hf⟩
  exact (step_of_pending hp).trans (performCmd_of_faulted hf)

/-! ### Fault entry and its causes (R141, R143) -/

/-- A command that faults an unfaulted unit takes the fault of one of its causes, and does nothing else. -/
theorem exists_takeFault_of_exec (hf : s.faulted = false) (h : exec i s = .next t) (ht : t.faulted = true) :
    ∃ c ∈ causesOf i, t = takeFault s c (encode i) := by
  obtain ⟨hf', -⟩ | ⟨-, hcause⟩ | ⟨-, hc⟩ := exec_outcomes h
  · simp [hf] at hf'
  · exact hcause
  · simp [hc.faulted_eq, hf] at ht

/-- Settles O15: a command that faults takes a fault, which is an update of the record only. -/
theorem faultEntryWritesTheRecordOnly : Obligations.FaultEntryWritesTheRecordOnly := by
  refine ⟨fun s c w => rfl, fun i s t hf h ht => ?_⟩
  obtain ⟨c, -, hc⟩ := exists_takeFault_of_exec hf h ht
  exact ⟨c, hc⟩

/-- Settles O16: the fault a command takes has one of its causes, and records that cause's code. -/
theorem commandsRaiseOnlyTheirCauses : Obligations.CommandsRaiseOnlyTheirCauses := by
  refine ⟨rfl, fun i s t hf h ht => ?_⟩
  obtain ⟨c, hmem, rfl⟩ := exists_takeFault_of_exec hf h ht
  exact ⟨c, hmem, takeFault_cause s c _⟩

/-! ### What raises and what clears a fault (R140, R145) -/

/-- In a faulted unit no transaction but RESET changes the fault record. -/
theorem perform_keeps_faultRecord {tr : Transaction} (hf : s.faulted = true) (htr : tr ≠ .reset)
    (h : perform tr s = .next t) : t.faulted = true ∧ t.cause = s.cause ∧ t.finfo = s.finfo := by
  cases tr with
  | reset => exact absurd rfl htr
  | wrx i v =>
    obtain ⟨-, ⟨-, rfl⟩ | ⟨hf', -⟩⟩ := performWrx_eq_next_iff.1 h
    · exact ⟨hf, rfl, rfl⟩
    · simp [hf] at hf'
  | rdx | rdc =>
    cases h
    exact ⟨hf, rfl, rfl⟩
  | cmd w =>
    cases (performCmd_of_faulted hf).symm.trans h
    exact ⟨hf, rfl, rfl⟩

/-- Only a CMD faults an unfaulted unit. -/
theorem exists_cmd_of_perform_faults {tr : Transaction} (hf : s.faulted = false) (h : perform tr s = .next t)
    (ht : t.faulted = true) : ∃ w, tr = .cmd w := by
  cases tr with
  | reset => cases h; simp at ht
  | wrx i v =>
    obtain ⟨-, ⟨hf', -⟩ | ⟨-, rfl⟩⟩ := performWrx_eq_next_iff.1 h
    · simp [hf] at hf'
    · simp [hf] at ht
  | rdx | rdc => cases h; simp [hf] at ht
  | cmd w => exact ⟨w, rfl⟩

/-- Settles O14: an idle step changes nothing, and of the transactions only a CMD raises a fault and only RESET clears
one. -/
theorem onlyResetClearsAFault : Obligations.OnlyResetClearsAFault := by
  refine ⟨fun s t h hhead hf => ?_, fun s t h hf ht => ?_, fun s hhead => ?_⟩
  · obtain ⟨-, rfl⟩ | ⟨tr, rest, hp, hperf⟩ := step_outcomes h
    · exact ⟨hf, rfl, rfl⟩
    · exact perform_keeps_faultRecord (s := { s with pending := rest }) hf (by simpa [hp] using hhead) hperf
  · obtain ⟨-, rfl⟩ | ⟨tr, rest, hp, hperf⟩ := step_outcomes h
    · simp [hf] at ht
    · obtain ⟨w, rfl⟩ := exists_cmd_of_perform_faults (s := { s with pending := rest }) hf hperf ht
      exact ⟨w, by rw [hp, List.head?_cons]⟩
  · obtain ⟨rest, hp⟩ := List.head?_eq_some_iff.1 hhead
    exact ⟨resetUnit { s with pending := rest }, step_of_pending hp, rfl, rfl, rfl, rfl, readReg_resetUnit _⟩

/-! ### The order of the checks (R142) -/

theorem performCmd_encode (i : Instr) (s : State) : performCmd (encode i) s = exec i s := by
  rw [performCmd, decodeInvertsEncode i]

/-- Settles O18: each clause is the rule of the first check that fails. -/
theorem checksComeInOrder : Obligations.ChecksComeInOrder := by
  refine ⟨fun w s hf => performCmd_of_faulted hf,
    fun w s e hf hd => performCmd_eq_next_iff.2 (.inr ⟨e, hd, .inr ⟨hf, rfl⟩⟩), fun i s hf hn hr => ?_,
    fun rs1 s hf hr => ?_, fun i r r' rd s hf hr hi hbad => ?_⟩
  · exact (performCmd_encode i s).trans (exec_of_not_ready hn hf hr)
  · exact (performCmd_encode _ s).trans (fieldIsImmutableUntilReset.right s rs1 hr hf)
  · rw [performCmd_encode]
    simp only [List.mem_cons, List.not_mem_nil, or_false] at hi
    obtain rfl | rfl := hi
    · exact exec_gfAdd_of_not_valid hf hr (not_and_or.2 hbad)
    · exact exec_gfMul_of_not_valid hf hr (not_and_or.2 hbad)

end Sys2Proof.Machine
end

section
/-! Every transaction completes: from a state of the invariant no step stops the model (R49, R165). The family
`70_reset_and_hazards.md`. -/

namespace Sys2Proof.Machine

/-- The outcome is a next state: neither a fault of the model nor a refusal. -/
def Answers (k : Result) : Prop := ∃ t, k = .next t

theorem answers_next (t : State) : Answers (.next t) := ⟨t, rfl⟩

variable {s : State} {i : Instr}

/-! ### One rule per shared operation

A check that fails raises a fault of the unit, which is a next state (R143). So an operation answers where what follows it
does; only a table read needs more. -/

theorem answers_unlessFaulted {k : Result} (hk : Answers k) : Answers (unlessFaulted s k) := by
  unfold unlessFaulted
  split
  · exact answers_next s
  · exact hk

theorem answers_check {ok : Prop} [Decidable ok] {c : Cause} {k : Result} (hk : ok → Answers k) :
    Answers (check ok i c s k) := by
  unfold check
  split
  · next hok => exact hk hok
  · exact answers_next _

theorem answers_fieldCommand {k : Result} (hk : s.ready = true → Answers k) :
    Answers (unlessFaulted s (needField i s k)) :=
  answers_unlessFaulted (answers_check hk)

theorem answers_needLog {v : Nat} {k : Int → Result} (hk : ∀ e, Answers (k e)) : Answers (needLog i s v k) := by
  unfold needLog
  split
  · exact hk _
  · exact answers_next _

/-- A validated exponent has its entry (R161: a read of an entry without a value is not possible). -/
theorem answers_readTable (h : s.Inv) (hr : s.ready = true) {e : Int} (he : ValidExponent s.ndeg e) {k : Nat → Result}
    (hk : ∀ v, Answers (k v)) : Answers (readTable s (e + 1).toNat k) := by
  obtain ⟨v, hv, -⟩ := h.exists_tableEntry hr he
  rw [readTable_of_getElem? hv]
  exact hk v

/-! ### Commands, transactions and steps -/

theorem exec_answers (h : s.Inv) (i : Instr) : Answers (exec i s) := by
  cases i with
  | gfInit => exact answers_unlessFaulted <| answers_check fun _ => answers_check fun _ => answers_next _
  | gfElem =>
    exact answers_fieldCommand fun hr => answers_check fun ha => answers_readTable h hr ha fun _ => answers_next _
  | gfLog => exact answers_fieldCommand fun _ => answers_check fun _ => answers_needLog fun _ => answers_next _
  | gfAdd =>
    exact answers_fieldCommand fun hr => answers_check fun ha => answers_check fun hb =>
      answers_readTable h hr ha fun _ => answers_readTable h hr hb fun _ => answers_needLog fun _ => answers_next _
  | gfMul => exact answers_fieldCommand fun _ => answers_check fun _ => answers_check fun _ => answers_next _
  | gfPow | ccEnc => exact answers_fieldCommand fun _ => answers_check fun _ => answers_next _
  | ccQuo | ccSyn => exact answers_fieldCommand fun _ => answers_next _
  | ccLoc => exact answers_fieldCommand fun _ => answers_needLog fun _ => answers_next _
  | ccDec =>
    refine answers_fieldCommand fun _ => ?_
    split
    · exact answers_next _
    · exact answers_needLog fun _ => answers_next _
  | meExp => exact answers_unlessFaulted <| answers_check fun _ => answers_check fun _ => answers_next _
  | meEncr | meDecr => exact answers_unlessFaulted <| answers_check fun _ => answers_next _
  | meC2i | meI2c =>
    refine answers_unlessFaulted ?_
    split <;> exact answers_next _

theorem performCmd_answers (h : s.Inv) (w : CmdWord) : Answers (performCmd w s) := by
  unfold performCmd
  split
  · next i _ => exact exec_answers h i
  · exact answers_unlessFaulted (answers_next _)

theorem performWrx_answers {j : RegNum} {v : Word} (hv : v < 2 ^ s.cfg.xw) : Answers (performWrx j v s) := by
  rw [performWrx, if_pos hv]
  exact answers_unlessFaulted (answers_next _)

/-- A transaction the port can carry completes (R55, R165). -/
theorem perform_answers (h : s.Inv) {tr : Transaction} (htr : tr.wellFormed s.cfg = true) : Answers (perform tr s) := by
  cases tr with
  | reset | rdx | rdc => exact answers_next _
  | wrx j v => exact performWrx_answers (of_decide_eq_true htr)
  | cmd w => exact performCmd_answers h w

theorem State.Inv.pending_wellFormed (h : s.Inv) {tr : Transaction} (htr : tr ∈ s.pending) :
    tr.wellFormed s.cfg = true := by
  obtain ⟨-, -, -, -, -, hpend⟩ := h
  exact hpend tr htr

/-- Settles O60: an idle step keeps the state, and the invariant makes the next transaction one the port can carry. -/
theorem everyTransactionCompletes : Obligations.EveryTransactionCompletes := by
  intro s h
  cases hp : s.pending with
  | nil => exact ⟨s, step_of_idle hp⟩
  | cons tr rest =>
    rw [step_of_pending hp]
    exact perform_answers (pendingTail_inv h hp) (h.pending_wellFormed (by simp [hp]))

end Sys2Proof.Machine
end

section
/-! The opcode map: no word matches two of its rows (R64); and the sample words of 95_test_vectors.md. -/

namespace Sys2Proof

/-! ### The rows of the map (R64) -/

theorem mask_selects_famFn : ∀ r ∈ opcodeTable, r.mask &&& 0xFE00#16 = 0xFE00#16 := by decide

theorem nodup_famFn_opcodeTable : (opcodeTable.map fun r => r.pattern &&& 0xFE00#16).Nodup := by decide

/-- A word that matches a row has the row's `fam:fn`. -/
theorem famFn_of_row_matches {r : OpcodeRow} (hr : r ∈ opcodeTable) {w : CmdWord} (h : w &&& r.mask = r.pattern) :
    w &&& 0xFE00#16 = r.pattern &&& 0xFE00#16 := by
  rw [← h, BitVec.and_assoc, mask_selects_famFn r hr]

/-- Settles O5: the rows differ in `fam:fn`, which every mask selects. -/
theorem opcodeRowsAreDisjoint : Obligations.OpcodeRowsAreDisjoint := by
  intro r₁ h₁ r₂ h₂ hne
  have hfamFn : r₁.pattern &&& 0xFE00#16 ≠ r₂.pattern &&& 0xFE00#16 := fun heq =>
    hne (List.inj_on_of_nodup_map nodup_famFn_opcodeTable h₁ h₂ heq)
  refine ⟨mask_selects_famFn r₁ h₁, hfamFn, fun w ⟨hw₁, hw₂⟩ => hfamFn ?_⟩
  rw [← famFn_of_row_matches h₁ hw₁, famFn_of_row_matches h₂ hw₂]

/-! ### The sample words -/

/-- Settles O7: each legal word is the word of its command; the decoder is run on the illegal ones. -/
theorem sampleWordsDecode : Obligations.SampleWordsDecode :=
  ⟨decode_eq_ok_iff.2 rfl, decode_eq_ok_iff.2 rfl, decode_eq_ok_iff.2 rfl, decode_eq_ok_iff.2 rfl, rfl, rfl, rfl⟩

end Sys2Proof
end

section
/-! The ME family: it ignores the field, its powers are modular, and the cipher returns every residue and every
character (R120, R122, R135). -/

namespace Sys2Proof.Machine

/-! ### No ME command reads the field (R120) -/

/-- The state with another field record: READY, GEN, NDEG and the field table. -/
def withField (ready : Bool) (gen ndeg : Nat) (ft : List Nat) (s : State) : State :=
  { s with ready := ready, gen := gen, ndeg := ndeg, ft := ft }

@[simp] theorem readReg_withField (ready : Bool) (gen ndeg : Nat) (ft : List Nat) (s : State) (r : RegNum) :
    readReg (withField ready gen ndeg ft s) r = readReg s r := rfl

section rules

variable {ready : Bool} {gen ndeg : Nat} {ft : List Nat} {s : State} {i : Instr}

/-- Where the first outcome is a next state, the second is that state with the other field record. -/
def AgreesButField (ready : Bool) (gen ndeg : Nat) (ft : List Nat) (k k' : Result) : Prop :=
  ∀ t, k = .next t → k' = .next (withField ready gen ndeg ft t)

theorem agreesButField_next (s : State) :
    AgreesButField ready gen ndeg ft (.next s) (.next (withField ready gen ndeg ft s)) := by
  rintro t ⟨⟩
  rfl

theorem agreesButField_raise (s : State) (i : Instr) (c : Cause) :
    AgreesButField ready gen ndeg ft (raise i c s) (raise i c (withField ready gen ndeg ft s)) :=
  agreesButField_next (takeFault s c (encode i))

theorem agreesButField_writeReg (s : State) (rd : RegNum) (v : Word) :
    AgreesButField ready gen ndeg ft (.next (writeReg s rd v))
      (.next (writeReg (withField ready gen ndeg ft s) rd v)) :=
  agreesButField_next (writeReg s rd v)

variable {k k' : Result} (hk : AgreesButField ready gen ndeg ft k k')
include hk

theorem agreesButField_unlessFaulted :
    AgreesButField ready gen ndeg ft (unlessFaulted s k) (unlessFaulted (withField ready gen ndeg ft s) k') := by
  obtain hf | hf := Bool.eq_false_or_eq_true s.faulted
  · rw [unlessFaulted_of_faulted hf, unlessFaulted_of_faulted (s := withField ready gen ndeg ft s) hf]
    exact agreesButField_next s
  · rwa [unlessFaulted_of_not_faulted hf, unlessFaulted_of_not_faulted (s := withField ready gen ndeg ft s) hf]

theorem agreesButField_check {ok : Prop} [Decidable ok] {c : Cause} :
    AgreesButField ready gen ndeg ft (check ok i c s k) (check ok i c (withField ready gen ndeg ft s) k') := by
  unfold check
  split
  · exact hk
  · exact agreesButField_raise s i c

end rules

/-- The checks of the ME commands read registers and constants only. -/
theorem exec_agreesButField {i : Instr} (hi : isMe i = true) (s : State) (ready : Bool) (gen ndeg : Nat)
    (ft : List Nat) :
    AgreesButField ready gen ndeg ft (exec i s) (exec i (withField ready gen ndeg ft s)) := by
  cases i with
  | gfInit | gfElem | gfLog | gfAdd | gfMul | gfPow => cases hi
  | ccEnc | ccQuo | ccSyn | ccLoc | ccDec => cases hi
  | meExp =>
    exact agreesButField_unlessFaulted <| agreesButField_check <| agreesButField_check <|
      agreesButField_writeReg s _ _
  | meEncr | meDecr =>
    exact agreesButField_unlessFaulted <| agreesButField_check <| agreesButField_writeReg s _ _
  | meC2i rd rs1 =>
    refine agreesButField_unlessFaulted ?_
    simp only [characterCode_eq, readReg_withField]
    split
    · exact agreesButField_writeReg s _ _
    · exact agreesButField_raise s _ _
  | meI2c rd rs1 =>
    refine agreesButField_unlessFaulted ?_
    simp only [alphabetValue_eq, readReg_withField]
    split
    · exact agreesButField_writeReg s _ _
    · exact agreesButField_raise s _ _

/-- Settles O26: by the rules of the shared operations; CORR is CC.DEC's. -/
theorem meCommandsIgnoreTheField : Obligations.MeCommandsIgnoreTheField := by
  intro i s t ready gen ndeg ft hi h
  refine ⟨exec_agreesButField hi s ready gen ndeg ft t h, exec_corr_of_ne_ccDec ?_ h⟩
  rintro rd rs1 rfl
  cases hi

/-! ### Square and multiply (R122, R136) -/

/-- Settles O51: by SQM as a power; a power of 0 or 1 is its base. -/
theorem sqmIsModularExponentiation : Obligations.SqmIsModularExponentiation := by
  intro kn num exp hnum hexp
  refine ⟨sqm_eq_pow_mod hnum hexp, sqm_lt exp hnum, fun h => ?_, fun h => ?_, fun h => ?_⟩
  · rw [sqm_eq_pow_mod hnum hexp, h, pow_one, Nat.mod_eq_of_lt hnum]
  · rw [sqm_eq_pow_mod hnum hexp, h, zero_pow (Nat.one_le_iff_ne_zero.1 hexp), Nat.zero_mod]
  · rw [sqm_eq_pow_mod hnum hexp, h, one_pow, Nat.mod_eq_of_lt (h ▸ hnum)]

/-! ### The cipher (R135) -/

/-- An exponent that is 1 modulo `p - 1` leaves every residue of the prime `p`. -/
theorem pow_modEq_self_of_prime {p e : Nat} (hp : p.Prime) (he : 1 ≤ e) (h : e ≡ 1 [MOD p - 1]) (num : Nat) :
    num ^ e ≡ num [MOD p] := by
  have hdvd : p - 1 ∣ e - 1 := (Nat.modEq_iff_dvd' he).1 h.symm
  have hpow := Int.ModEq.pow_eq_pow hp hdvd he Nat.one_pos num
  rw [pow_one] at hpow
  exact_mod_cast hpow

/-- With the cipher's parameters the two exponents undo each other, on every residue. -/
theorem pow_ke_pow_kd_mod {c : Config} (hc : c.CipherParameters) (hke : 1 ≤ c.ke) (hkd : 1 ≤ c.kd)
    {num : Nat} (hnum : num < c.kn) : (num ^ c.ke % c.kn) ^ c.kd % c.kn = num := by
  obtain ⟨p, q, hp, hq, hne, hkn, hexp⟩ := hc
  have hpos : 1 ≤ c.ke * c.kd := Nat.mul_pos hke hkd
  have hmod : num ^ (c.ke * c.kd) ≡ num [MOD p * q] :=
    (Nat.modEq_and_modEq_iff_modEq_mul ((Nat.coprime_primes hp hq).2 hne)).1
      ⟨pow_modEq_self_of_prime hp hpos hexp.of_mul_right num, pow_modEq_self_of_prime hq hpos hexp.of_mul_left num⟩
  rw [← Nat.pow_mod, ← pow_mul, hkn, hmod, ← hkn, Nat.mod_eq_of_lt hnum]

section unfaulted

variable {s : State} (hf : s.faulted = false)
include hf

/-- ME.I2C gives the code of the value that ME.C2I gave for it. -/
theorem exec_meI2c_of_index {rd rs1 : RegNum} {j : Nat} {c : CharCode} (hc : alpha[j]? = some c)
    (hr : readReg s rs1 = j + 2) : exec (.meI2c rd rs1) s = .next (writeReg s rd c.toNat) := by
  have hlt : j < 67 := length_alpha ▸ (List.getElem?_eq_some_iff.1 hc).1
  have hhi : j + 2 ≤ 68 := by omega
  exact exec_meI2c_of_in_range hf ((Nat.le_add_left 2 j).trans hr.ge) (hr.le.trans hhi) (by rwa [hr])

/-- ME.DECR of the register ME.ENCR wrote writes the residue that was encrypted. -/
theorem exec_meDecr_of_meEncr (hke : 1 ≤ s.cfg.ke) (hkd : 1 ≤ s.cfg.kd) (hc : s.cfg.CipherParameters) {r1 : RegNum}
    (hnum : readReg s r1 < s.cfg.kn) (r2 r3 : RegNum) :
    ∃ t, exec (.meEncr r2 r1) s = .next t ∧ t.faulted = false ∧
      exec (.meDecr r3 r2) t = .next (writeReg t r3 (readReg s r1)) := by
  refine ⟨_, exec_meEncr_of_lt hf hke hnum, hf, ?_⟩
  have hres : readReg s r1 ^ s.cfg.ke % s.cfg.kn < s.cfg.kn := Nat.mod_lt _ (pos_of_gt hnum)
  rw [exec_meDecr_of_lt (by simpa using hf) (by simpa using hkd) (by simpa using hres), readReg_writeReg_self,
    writeReg_cfg, pow_ke_pow_kd_mod hc hke hkd hnum]

end unfaulted

/-- Settles O57: the two exponents undo each other on every residue below KN, and all the alphabet values are such. -/
theorem cipherRoundTrip : Obligations.CipherRoundTrip := by
  intro r1 r2 r3 r4 r5 s h hf hc
  obtain ⟨⟨-, -, -, -, -, hkn, hke, hkd⟩, -⟩ := h
  refine ⟨fun hnum => ?_, fun c hmem hr => ?_⟩
  · obtain ⟨t, ht, htf, hu⟩ := exec_meDecr_of_meEncr hf hke hkd hc hnum r2 r3
    exact ⟨t, _, ht, hu, readReg_writeReg_self .., htf⟩
  · obtain ⟨j, hj⟩ := List.getElem?_of_mem hmem
    have hlt : j < 67 := length_alpha ▸ (List.getElem?_eq_some_iff.1 hj).1
    have hval : readReg (writeReg s r2 (j + 2)) r2 = j + 2 := readReg_writeReg_self ..
    have hnum : j + 2 < s.cfg.kn := by omega
    obtain ⟨u, hu, huf, hv⟩ := exec_meDecr_of_meEncr (s := writeReg s r2 (j + 2)) (r1 := r2) hf hke hkd hc
      (by rwa [hval]) r3 r4
    rw [hval] at hv
    exact ⟨_, u, _, _, exec_meC2i_of_code hf hj hr, hu, hv,
      exec_meI2c_of_index (s := writeReg u r4 (j + 2)) huf hj (readReg_writeReg_self ..), readReg_writeReg_self ..,
      huf⟩

end Sys2Proof.Machine
end

section
/-! Polynomials over GF(2): the product as a convolution and its laws, and the division (R14, R15). -/

namespace Sys2Proof.Machine

/-! ### The product is a convolution (R14) -/

/-- Whether the bits `i` of `b` and `k - i` of `a` are both 1: a pair whose positions add up to `k`. -/
def bitPair (a b k i : Nat) : Bool := b.testBit i && a.testBit (k - i)

theorem pmulLow_eq_pmul_of_le {a b n : Nat} (h : len b ≤ n) : pmulLow a b n = pmul a b := by
  rw [pmul_eq_pmulLow]
  induction n, h using Nat.le_induction with
  | base => rfl
  | succ n hle ih =>
    have hbit : b.testBit n = false := Nat.testBit_lt_two_pow (len_le_iff.1 hle)
    simp [pmulLow, hbit, ih]

/-- Bit `k` counts the pairs among the positions summed so far. -/
theorem testBit_pmulLow (a b k n : Nat) :
    (pmulLow a b n).testBit k =
      decide (((List.range n).countP fun i => decide (i ≤ k) && bitPair a b k i) % 2 = 1) := by
  induction n with
  | zero => simp [pmulLow]
  | succ n ih =>
    have hterm : (if b.testBit n then a <<< n else 0).testBit k = (decide (n ≤ k) && bitPair a b k n) := by
      cases hbit : b.testBit n <;> simp [bitPair, hbit, Nat.testBit_shiftLeft]
    rw [pmulLow, Nat.testBit_xor, ih, hterm, List.range_succ, List.countP_append, List.countP_singleton]
    cases decide (n ≤ k) && bitPair a b k n with
    | false => simp
    | true =>
      simp only [Bool.xor_true, ← decide_not, if_true, decide_eq_decide]
      omega

theorem testBit_pmul (a b k : Nat) :
    (pmul a b).testBit k = decide ((List.range (k + 1)).countP (bitPair a b k) % 2 = 1) := by
  have hlow : (List.range (k + 1)).countP (fun i => decide (i ≤ k) && bitPair a b k i) =
      (List.range (k + 1)).countP (bitPair a b k) :=
    List.countP_congr fun i hi => by simp [Nat.le_of_lt_succ (List.mem_range.1 hi)]
  have hhigh : ((List.range (len b)).map (k + 1 + ·)).countP (fun i => decide (i ≤ k) && bitPair a b k i) = 0 :=
    List.countP_eq_zero.2 fun i hi => by
      obtain ⟨j, -, rfl⟩ := List.mem_map.1 hi
      have hgt : ¬k + 1 + j ≤ k := by omega
      simp [hgt]
  rw [← pmulLow_eq_pmul_of_le (Nat.le_add_left (len b) (k + 1)), testBit_pmulLow, List.range_add,
    List.countP_append, hlow, hhigh, Nat.add_zero]

/-! ### The laws of the polynomial ring -/

/-- Exchanging the factors reads the pairs in reverse order. -/
theorem pmul_comm (a b : Nat) : pmul a b = pmul b a := by
  refine Nat.eq_of_testBit_eq fun k => ?_
  rw [testBit_pmul, testBit_pmul, ← List.countP_reverse, List.range_eq_range', List.reverse_range', List.countP_map,
    ← List.range_eq_range']
  congr 3
  refine List.countP_congr fun i hi => ?_
  have hle : i ≤ k := Nat.le_of_lt_succ (List.mem_range.1 hi)
  simp [bitPair, Nat.sub_sub_self hle, Bool.and_comm]

@[simp] theorem pmul_zero (a : Nat) : pmul a 0 = 0 := by rw [pmul_comm, zero_pmul]

theorem pmul_xor_right (a b c : Nat) : pmul a (b ^^^ c) = pmul a b ^^^ pmul a c := by
  rw [pmul_comm, pmul_xor, pmul_comm b, pmul_comm c]

/-- The law holds of the powers of x, and of sums of them; a factor is the sum of its own bits. -/
theorem pmul_assoc (a b c : Nat) : pmul (pmul a b) c = pmul a (pmul b c) := by
  have hsum (k : Nat) : pmul (pmul (pmulLow 1 a k) b) c = pmul (pmulLow 1 a k) (pmul b c) := by
    induction k with
    | zero => simp [pmulLow]
    | succ k ih =>
      rw [pmulLow, pmul_xor, pmul_xor, pmul_xor, ih]
      split
      · simp only [pmul_shiftLeft, one_pmul]
      · simp only [zero_pmul]
  have hself : pmulLow 1 a (len a) = a := by rw [← pmul_eq_pmulLow, one_pmul]
  rw [← hself, hsum]

/-- Settles O28: the bits of the product by its sum, the laws by those of XOR and shift. -/
theorem polynomialProductLaws : Obligations.PolynomialProductLaws := by
  refine ⟨fun a b k => ?_, fun a b c =>
    ⟨pmul_comm a b, pmul_assoc a b c, pmul_xor_right a b c, pmul_zero a, fun ha hb => ?_⟩⟩
  · exact (testBit_pmul a b k).trans (by rw [List.countP_eq_length_filter]; rfl)
  · obtain ⟨n, hn⟩ := exists_len_eq_succ hb
    have hlen := len_pmul ha hn
    unfold deg
    omega

/-! ### The division (R15) -/

/-- Settles O29: the loop keeps `pmul q g ^^^ r` and stops with a short remainder; a short dividend is its own. -/
theorem polynomialDivision : Obligations.PolynomialDivision := by
  intro a g hg
  have hrem := len_pmod_lt hg a
  unfold deg
  refine ⟨(pmul_pquo_xor_pmod hg a).symm, by unfold pmod at hrem; omega, fun hdeg => ?_⟩
  obtain ⟨hquo, hmod⟩ := pdiv_of_len_lt (a := a) (g := g) (by omega)
  exact Prod.ext hquo hmod

end Sys2Proof.Machine
end

section
/-! The field as a whole: its table holds the powers of x, and under a primitive generator every element once, so that
exponents and elements correspond (R84, R86, R90). -/

namespace Sys2Proof.Machine

variable {s : State}

/-! ### The table (R84) -/

/-- Settles O31: the construction's elements are the powers of x. -/
theorem tableHoldsThePowersOfX : Obligations.TableHoldsThePowersOfX := by
  intro s h hr k hk
  have hn := Nat.one_lt_two_pow (Nat.one_le_iff_ne_zero.1 (h.one_le_ndeg hr))
  rw [h.getElem?_ft_succ hr (by omega), h.elementAfter_gen hr]

section primitive

variable (h : s.Inv) (hr : s.ready = true) (hp : PrimitiveGenerator s.gen)
include h hr hp

theorem State.Inv.mem_ft {v : Nat} (hv : v < 2 ^ s.ndeg) : v ∈ s.ft := by
  obtain rfl | h0 := eq_or_ne v 0
  · exact List.mem_of_getElem? (h.getElem?_ft_zero hr)
  · obtain ⟨k, hk, rfl⟩ := exists_elementAfter_eq (h.len_gen hr) hp hv h0
    exact List.mem_of_getElem? (h.getElem?_ft_succ hr hk)

/-- The table has as many entries as there are n-bit values, and holds them all. -/
theorem State.Inv.nodup_ft : s.ft.Nodup := by
  have hsub : List.range (2 ^ s.ndeg) ⊆ s.ft := fun v hv => h.mem_ft hr hp (List.mem_range.1 hv)
  have hlen : s.ft.length ≤ (List.range (2 ^ s.ndeg)).length := by simp [h.length_ft hr]
  have hperm := (List.subperm_of_subset List.nodup_range hsub).perm_of_length_le hlen
  exact hperm.nodup_iff.1 List.nodup_range

end primitive

/-- Settles O32: the table is an arrangement of the n-bit values, and the sequence returns to 1 after it. -/
theorem primitiveTableHoldsEveryElementOnce : Obligations.PrimitiveTableHoldsEveryElementOnce := by
  intro s h hr hp
  have hgen := h.len_gen hr
  have hn := one_lt_two_pow_of_primitive hgen hp
  have hlast : 2 ^ s.ndeg - 1 = 2 ^ s.ndeg - 2 + 1 := by omega
  have hback : elementAfter s.gen s.ndeg (2 ^ s.ndeg - 1) = 1 := by
    rw [← elementAfter_mod hgen hp, Nat.mod_self]
    rfl
  rw [hlast, elementAfter_succ] at hback
  refine ⟨h.nodup_ft hr hp, fun v => h.mem_ft hr hp, elementAfter s.gen s.ndeg (2 ^ s.ndeg - 2), ?_, hback⟩
  rw [hlast, h.getElem?_ft_succ hr (by omega)]

/-! ### Exponents and elements (R86) -/

/-- `sext` gives a word back from its signed reading. -/
theorem sext_sx {xw v : Nat} (hv : v < 2 ^ xw) : sext xw (sx xw v) = v := by
  unfold sx
  split
  · zify at hv ⊢
    rw [coe_sext_of_neg (by omega) (by omega), sub_add_cancel]
  · exact sext_natCast xw v

theorem State.Inv.sext_signedReg (h : s.Inv) (r : RegNum) : sext s.cfg.xw (signedReg s r) = readReg s r :=
  sext_sx (h.registersFit r)

section ready

variable (h : s.Inv) (hr : s.ready = true)
include h hr

/-- A valid exponent is in the signed range of a register (R7), so it reads back. -/
theorem State.Inv.sx_sext {e : Int} (he : ValidExponent s.ndeg e) : sx s.cfg.xw (sext s.cfg.xw e) = e := by
  have hfit := h.two_pow_ndeg_le hr
  obtain ⟨⟨-, -, -, -, hxw, -⟩, -⟩ := h
  obtain ⟨hlo, hhi⟩ := he
  obtain ⟨w, hw⟩ := Nat.exists_eq_add_of_le' (show 1 ≤ s.cfg.xw by omega)
  have hpow : w < 2 ^ w := Nat.lt_two_pow_self
  rw [hw]
  push_cast at hhi
  zify at hfit hpow
  exact (sext_lt_and_sx_sext (by omega) (by omega)).right

theorem State.Inv.signedReg_writeReg_sext {e : Int} (he : ValidExponent s.ndeg e) (rd : RegNum) :
    signedReg (writeReg s rd (sext s.cfg.xw e)) rd = e := by
  rw [signedReg, readReg_writeReg_self, writeReg_cfg, h.sx_sext hr he]

variable (hp : PrimitiveGenerator s.gen)
include hp

/-- Every n-bit value is the element of an exponent. -/
theorem State.Inv.exists_exponent {v : Nat} (hv : v < 2 ^ s.ndeg) :
    ∃ e, ValidExponent s.ndeg e ∧ s.ft[(e + 1).toNat]? = some v := by
  obtain ⟨j, hj⟩ := List.getElem?_of_mem (h.mem_ft hr hp hv)
  have hlt := (List.getElem?_eq_some_iff.1 hj).1
  rw [h.length_ft hr] at hlt
  refine ⟨(j : Int) - 1, ⟨by omega, by omega⟩, ?_⟩
  rwa [sub_add_cancel, Int.toNat_natCast]

/-- The lookup of an element gives its exponent: the entries are distinct. -/
theorem State.Inv.needLog_entry {i : Instr} {e : Int} (he : ValidExponent s.ndeg e) {v : Nat}
    (hv : s.ft[(e + 1).toNat]? = some v) (k : Int → Result) : needLog i s v k = k e := by
  have hlow (j : Nat) (hj : j < (e + 1).toNat) : s.ft[j]? ≠ some v := fun heq =>
    hj.ne ((List.getElem?_inj (List.getElem?_eq_some_iff.1 heq).1 (h.nodup_ft hr hp)).1 (heq.trans hv.symm))
  have hexp : ((e + 1).toNat : Int) - 1 = e := by
    obtain ⟨hlo, -⟩ := he
    omega
  rw [needLog_of_lowest hv hlow, hexp]

/-- The elements are closed under XOR. -/
theorem State.Inv.exists_sum {a b : Int} (ha : ValidExponent s.ndeg a) (hb : ValidExponent s.ndeg b) :
    ∃ u v e, s.ft[(a + 1).toNat]? = some u ∧ s.ft[(b + 1).toNat]? = some v ∧
      ValidExponent s.ndeg e ∧ s.ft[(e + 1).toNat]? = some (u ^^^ v) := by
  obtain ⟨u, hu, hult⟩ := h.exists_tableEntry hr ha
  obtain ⟨v, hv, hvlt⟩ := h.exists_tableEntry hr hb
  obtain ⟨e, he⟩ := h.exists_exponent hr hp (Nat.xor_lt_two_pow hult hvlt)
  exact ⟨u, v, e, hu, hv, he⟩

end ready

/-- Settles O39: the element of an exponent has it as its lowest index, and the exponent of an element reads it. -/
theorem elementAndLogAreInverse : Obligations.ElementAndLogAreInverse := by
  rintro rd rd' rs1 s ⟨h, hf, hr⟩ hp
  refine ⟨fun ha => ?_, fun hv => ?_⟩
  · obtain ⟨v, hv, hlt⟩ := h.exists_tableEntry hr ha
    have ht : (writeReg s rd v).Inv := writeReg_inv h rd (h.tableEntry_lt hr hv)
    have hlog := exec_gfLog_of_lt (rd := rd') (rs1 := rd) (s := writeReg s rd v) hf hr (by simpa using hlt)
    rw [readReg_writeReg_self, ht.needLog_entry hr hp ha hv, writeReg_cfg, h.sext_signedReg] at hlog
    exact ⟨_, _, exec_gfElem_of_valid hf hr ha hv, hlog, readReg_writeReg_self .., hf⟩
  · obtain ⟨e, he, hentry⟩ := h.exists_exponent hr hp hv
    have hread := h.signedReg_writeReg_sext hr he rd
    have hlog := (exec_gfLog_of_lt (rd := rd) hf hr hv).trans (h.needLog_entry hr hp he hentry _)
    have helem := exec_gfElem_of_valid (rd := rd') (rs1 := rd) (s := writeReg s rd (sext s.cfg.xw e)) hf hr
      (by rwa [hread]) (by rwa [hread])
    exact ⟨_, _, hlog, helem, readReg_writeReg_self .., hf⟩

/-! ### The operations on exponents (R90) -/

section operations

variable (h : s.Inv) (hf : s.faulted = false) (hr : s.ready = true)
include h hf hr

/-- A command that writes a valid exponent completes with one in its destination. -/
theorem State.Inv.completes_of_writes_exponent {rd : RegNum} {e : Int} (he : ValidExponent s.ndeg e) {k : Result}
    (hk : k = .next (writeReg s rd (sext s.cfg.xw e))) :
    ∃ t, k = .next t ∧ t.faulted = false ∧ ValidExponent s.ndeg (signedReg t rd) :=
  ⟨_, hk, hf, by rwa [h.signedReg_writeReg_sext hr he]⟩

/-- GF.ADD writes the exponent of the XOR of its operands' elements. -/
theorem State.Inv.exec_gfAdd (hp : PrimitiveGenerator s.gen) {rs1 rs2 : RegNum}
    (ha : ValidExponent s.ndeg (signedReg s rs1)) (hb : ValidExponent s.ndeg (signedReg s rs2)) {u v : Nat}
    (hu : s.ft[(signedReg s rs1 + 1).toNat]? = some u) (hv : s.ft[(signedReg s rs2 + 1).toNat]? = some v) {e : Int}
    (he : ValidExponent s.ndeg e) (hentry : s.ft[(e + 1).toNat]? = some (u ^^^ v)) (rd : RegNum) :
    exec (.gfAdd rd rs1 rs2) s = .next (writeReg s rd (sext s.cfg.xw e)) :=
  (exec_gfAdd_of_valid hf hr ha hb hu hv).trans (h.needLog_entry hr hp he hentry _)

end operations

/-- Settles O40: the exponents written are valid; the element of -1 is 0, and XOR is commutative. -/
theorem fieldOperationsAreClosed : Obligations.FieldOperationsAreClosed := by
  rintro rd rs1 rs2 s ⟨h, hf, hr⟩ hp ha
  have hn := h.one_le_ndeg hr
  refine ⟨?_, fun hb => ?_⟩
  · exact h.completes_of_writes_exponent hf hr (validExponent_powExp hn ha _) (exec_gfPow_of_valid hf hr ha)
  obtain ⟨u, v, e, hu, hv, he, hentry⟩ := h.exists_sum hr hp ha hb
  have hadd := h.exec_gfAdd hf hr hp ha hb hu hv he hentry rd
  refine ⟨fun i hi => ?_, fun hzero => ?_, ?_⟩
  · simp only [List.mem_cons, List.not_mem_nil, or_false] at hi
    obtain rfl | rfl := hi
    · exact h.completes_of_writes_exponent hf hr he hadd
    · exact h.completes_of_writes_exponent hf hr (validExponent_mulExp hn _ _) (exec_gfMul_of_valid hf hr ha hb)
  · rw [hzero] at hu
    obtain rfl : u = 0 := Option.some_inj.1 (hu.symm.trans (h.getElem?_ft_zero hr))
    rw [h.exec_gfAdd hf hr hp ha hb (by rwa [hzero]) hv hb (by rwa [Nat.zero_xor]), h.sext_signedReg]
  · rw [hadd, h.exec_gfAdd hf hr hp hb ha hv hu he (by rwa [Nat.xor_comm])]

/-! ### Multiplication (R88, R90) -/

theorem mulExp_comm (n : Nat) (a b : Int) : mulExp n a b = mulExp n b a :=
  if_congr or_comm rfl (by rw [add_comm])

theorem mulExp_natCast (n j k : Nat) : mulExp n j k = ((j + k) % (2 ^ n - 1) : Nat) := by
  zify [Nat.one_le_two_pow (n := n)]
  exact mulExp_of_ne (by omega) (by omega)

theorem mulExp_ne_neg_one {n : Nat} (hn : 1 ≤ n) {a b : Int} (ha : a ≠ -1) (hb : b ≠ -1) : mulExp n a b ≠ -1 := by
  obtain ⟨r, hr, -⟩ := exists_natCast_eq_emod hn (a + b)
  rw [mulExp_of_ne ha hb, ← hr]
  omega

@[simp] theorem neg_one_mulExp (n : Nat) (b : Int) : mulExp n (-1) b = -1 := mulExp_of_neg_one (.inl rfl)

@[simp] theorem mulExp_neg_one (n : Nat) (a : Int) : mulExp n a (-1) = -1 := mulExp_of_neg_one (.inr rfl)

/-- -1 absorbs from any place; else both sides are the sum of the three exponents. -/
theorem mulExp_assoc {n : Nat} (hn : 1 ≤ n) (a b c : Int) :
    mulExp n (mulExp n a b) c = mulExp n a (mulExp n b c) := by
  obtain rfl | ha := eq_or_ne a (-1)
  · simp
  obtain rfl | hb := eq_or_ne b (-1)
  · simp
  obtain rfl | hc := eq_or_ne c (-1)
  · simp
  rw [mulExp_of_ne (mulExp_ne_neg_one hn ha hb) hc, mulExp_of_ne ha (mulExp_ne_neg_one hn hb hc), mulExp_of_ne ha hb,
    mulExp_of_ne hb hc, Int.emod_add_emod, Int.add_emod_emod, add_assoc]

/-- Settles O41: each multiplication by exponent 1 adds 1 modulo `2 ^ n - 1`. -/
theorem multiplicationIsTheCyclicGroup : Obligations.MultiplicationIsTheCyclicGroup := by
  intro n hn
  refine ⟨fun k => ?_, fun a b c _ _ _ => ⟨mulExp_comm n a b, mulExp_assoc hn a b c⟩⟩
  induction k with
  | zero => simp
  | succ k ih =>
    rw [Function.iterate_succ_apply', ih]
    exact (mulExp_natCast n _ 1).trans (by rw [Nat.mod_add_mod])

/-! ### Multiplication of elements (R90) -/

section product

variable {g : Nat} (hg : g ≠ 0)
include hg

/-- Dividing a factor before a product does not change the remainder after it. -/
theorem pmod_pmul_pmod_left (a b : Nat) : pmod (pmul (pmod a g) b) g = pmod (pmul a b) g := by
  have h : pmul a b = pmul (pmul (pquo a g) b) g ^^^ pmul (pmod a g) b := by
    calc pmul a b
      _ = pmul (pmul (pquo a g) g ^^^ pmod a g) b := by rw [pmul_pquo_xor_pmod hg]
      _ = pmul (pmul (pquo a g) b) g ^^^ pmul (pmod a g) b := by
        rw [pmul_xor, pmul_assoc, pmul_comm g, ← pmul_assoc]
  rw [h, pmod_pmul_xor hg]

theorem pmod_pmul_pmod (a b : Nat) : pmod (pmul (pmod a g) (pmod b g)) g = pmod (pmul a b) g := by
  rw [pmod_pmul_pmod_left hg, pmul_comm, pmod_pmul_pmod_left hg, pmul_comm]

end product

theorem zero_pmod {g : Nat} (hg : g ≠ 0) : pmod 0 g = 0 := by
  have h := pmod_pmul hg 0
  rwa [zero_pmul] at h

/-- The product of two elements is the element of the sum of their exponents. -/
theorem State.Inv.pmod_pmul_elementAfter (h : s.Inv) (hr : s.ready = true) (j k : Nat) :
    pmod (pmul (elementAfter s.gen s.ndeg j) (elementAfter s.gen s.ndeg k)) s.gen =
      elementAfter s.gen s.ndeg (j + k) := by
  rw [h.elementAfter_gen hr, h.elementAfter_gen hr, h.elementAfter_gen hr, pmod_pmul_pmod (h.gen_ne_zero hr),
    pmul_shiftLeft, one_pmul, ← Nat.shiftLeft_add, Nat.add_comm]

/-- Settles O42: -1 is the exponent of 0; the product of two powers of x is the power of the sum, which is that of the
sum modulo `2 ^ n - 1`. -/
theorem multiplicationIsThePolynomialProduct : Obligations.MultiplicationIsThePolynomialProduct := by
  intro s a b h hr hp ha hb
  have hgen := h.len_gen hr
  have hzero := h.getElem?_ft_zero hr
  obtain ⟨u, hu, -⟩ := h.exists_tableEntry hr ha
  obtain ⟨v, hv, -⟩ := h.exists_tableEntry hr hb
  refine ⟨u, v, hu, hv, ?_⟩
  by_cases hone : a = -1 ∨ b = -1
  · have hprod : pmul u v = 0 := by
      obtain rfl | rfl := hone
      · rw [Option.some_inj.1 (hu.symm.trans hzero), zero_pmul]
      · rw [Option.some_inj.1 (hv.symm.trans hzero), pmul_zero]
    rw [mulExp_of_neg_one hone, hprod, zero_pmod (h.gen_ne_zero hr)]
    exact hzero
  · obtain ⟨ha', hb'⟩ := not_or.1 hone
    obtain ⟨j, rfl⟩ := Int.eq_ofNat_of_zero_le (show 0 ≤ a by omega)
    obtain ⟨k, rfl⟩ := Int.eq_ofNat_of_zero_le (show 0 ≤ b by omega)
    have hj := h.getElem?_ft_succ hr (k := j) (by omega)
    have hk := h.getElem?_ft_succ hr (k := k) (by omega)
    have hpos : 0 < 2 ^ s.ndeg - 1 := by omega
    rw [Option.some_inj.1 (hu.symm.trans hj), Option.some_inj.1 (hv.symm.trans hk), h.pmod_pmul_elementAfter hr,
      ← elementAfter_mod hgen hp, mulExp_natCast]
    exact h.getElem?_ft_succ hr (Nat.mod_lt _ hpos)

end Sys2Proof.Machine
end

section
/-! The code as a whole: a codeword decodes to its word, also with one bit flipped (R106, R107). -/

namespace Sys2Proof.Machine

theorem pquo_pmul {g : Nat} (hg : g ≠ 0) (w : Nat) : pquo (pmul w g) g = w :=
  (pdiv_unique (q := w) (r := 0) (len_pos_iff.2 hg) (Nat.xor_zero _)).left

/-- Settles O48: a codeword leaves no remainder, and its quotient is the word. -/
theorem decodingACodewordGivesTheWord : Obligations.DecodingACodewordGivesTheWord := by
  rintro rs1 rc rd s ⟨h, hf, hr⟩ hfit
  have hgen := h.gen_ne_zero hr
  have hlen : len (pmul (readReg s rs1) s.gen) ≤ s.cfg.xw := by
    obtain hw | hw := eq_or_ne (readReg s rs1) 0
    · simp [hw]
    · rwa [len_pmul hw (h.len_gen hr)]
  have hdec := exec_ccDec_of_pmod_eq_zero (s := writeReg s rc (pmul (readReg s rs1) s.gen)) (rd := rd) (rs1 := rc) hf hr
    (by simpa using pmod_pmul hgen _)
  refine ⟨_, _, exec_ccEnc_of_le hf hr hlen, hdec, ?_, rfl, hf⟩
  simpa using pquo_pmul hgen _

/-- Settles O49: the syndrome is the element of the flipped position, so the same bit is flipped back. -/
theorem singleBitErrorsAreCorrected : Obligations.SingleBitErrorsAreCorrected := by
  rintro rd rs1 s w p ⟨h, hf, hr⟩ hp hle - hw
  have hgen := h.len_gen hr
  have hn := one_lt_two_pow_of_primitive hgen hp
  have hlt : p < 2 ^ s.ndeg - 1 := by omega
  have hsyn : pmod (readReg s rs1) s.gen = elementAfter s.gen s.ndeg p := by rw [hw, h.pmod_pmul_xor_bit hr]
  constructor
  · rw [exec_ccDec_of_pmod_ne_zero hf hr (hsyn ▸ elementAfter_ne_zero hgen hp hlt), hsyn,
      h.needLog_elementAfter hr hp hlt, hw, Int.toNat_natCast, Nat.xor_xor_cancel_right, pquo_pmul (h.gen_ne_zero hr)]
    rfl
  · rw [exec_ccLoc_of_ready hf hr, hsyn, h.needLog_elementAfter hr hp hlt, sext_natCast]

end Sys2Proof.Machine
end
